-- ==== Sys2Proof/Word.lean ====
section
/-! DEFINITION. The unsigned words and bytes of the core (R9, R11), and the fixed-size rows of them that the spec names. -/

namespace Sys2Proof

/-- `u8` of R11: one byte. -/
abbrev Byte := BitVec 8

/-- `u32` of R11: one 32-bit word (R9). `+` on it is addition mod 2^32 (R12). -/
abbrev Word := BitVec 32

/-- An 8-word row: a hash state (R9, R44), a result (R48), a tag (R41). -/
abbrev Words8 := Vector Word 8

/-- A message block, "a fixed-size array of 16 32-bit unsigned words" (R18, R180). -/
abbrev Block := Vector Word 16

/-- 64 bytes: the block buffer (R45), a normalised key (R47). -/
abbrev Bytes64 := Vector Byte 64

/-- Eight words of zero. -/
def zeroWords : Words8 := Vector.replicate 8 0#32

/-- `zeros(64)` of R13 as a 64-byte row. -/
def zeroBytes : Bytes64 := Vector.replicate 64 0#8

end Sys2Proof
end

