-- ==== Sys2Proof/Syntax.lean ====
section
/-! DEFINITION. The nine commands of the opcode map (R104, spec/opcode_table.json), one constructor a row. -/

namespace Sys2Proof

/-- A command of the core (R104). `PUSH` carries its byte count `n` (R102); no other command has an operand. -/
inductive Instr where
  /-- `HASH_START`, OPC 0x1 (R223). -/
  | hashStart
  /-- `KEY_START`, OPC 0x2 (R253). -/
  | keyStart
  /-- `HMAC_INNER_START`, OPC 0x3 (R256). -/
  | hmacInnerStart
  /-- `PUSH n`, OPC 0x4, `n = NBM1 + 1` (R102, R224). -/
  | push (n : Nat)
  /-- `FINISH`, OPC 0x5 (R225). -/
  | finish
  /-- `KEY_FINISH`, OPC 0x6 (R255). -/
  | keyFinish
  /-- `HMAC_OUTER`, OPC 0x7 (R257). -/
  | hmacOuter
  /-- `VERIFY`, OPC 0x8 (R282). -/
  | verify
  /-- `CLEAR`, OPC 0xF (R139). -/
  | clear
deriving DecidableEq, Repr

end Sys2Proof
end

