-- ==== Sys2Proof/WellFormed.lean ====
section
/-! DEFINITION. Which commands can be written: the one check of R102 and R109 on `PUSH`'s byte count. -/

namespace Sys2Proof

/-- `PUSH`'s byte count is "a value from 1 to 4" (R102), and "`PUSH 0` and `PUSH 5` and above cannot be written"
(R109). Every other command has no operand and is well-formed. -/
def wellFormed : Instr → Bool
  | .push n => decide (1 ≤ n) && decide (n ≤ 4)
  | .hashStart => true
  | .keyStart => true
  | .hmacInnerStart => true
  | .finish => true
  | .keyFinish => true
  | .hmacOuter => true
  | .verify => true
  | .clear => true

/-- The check as a proposition. -/
abbrev WellFormed (i : Instr) : Prop := wellFormed i = true

end Sys2Proof
end

