-- ==== Sys2Proof/Decode.lean ====
section
/-! DEFINITION. Command words to commands (R100 to R107, R131), and back (R104, R109). -/

namespace Sys2Proof

/-- Why a command word is illegal (R105). The core reports each alike, as ILLEGAL_CMD (R303). -/
inductive Illegal where
  /-- `cmd[31:6]` is not 0 (R103). -/
  | reservedBits
  /-- `OPC` is 0x0 or one of 0x9 to 0xE (R105). -/
  | reservedOpcode
  /-- `cmd[5:4]` is not 0 and `OPC` is not `PUSH`'s (R103). -/
  | operandBits
deriving DecidableEq, Repr

/-- `OPC = cmd[3:0]` (R101). -/
def opcField (v : Word) : BitVec 4 := v.extractLsb' 0 4

/-- `NBM1 = cmd[5:4]` (R102). -/
def nbm1Field (v : Word) : BitVec 2 := v.extractLsb' 4 2

/-- `RSVD = cmd[31:6]` (R100). -/
def rsvdField (v : Word) : BitVec 26 := v.extractLsb' 6 26

/-- A command without an operand: its `NBM1` bits must be 0 (R103). -/
def decodePlain (v : Word) (i : Instr) : Except Illegal Instr :=
  if nbm1Field v = 0 then .ok i else .error .operandBits

/-- `Decode(v)` of R131, total on all 2^32 words. -/
def decode (v : Word) : Except Illegal Instr :=
  if rsvdField v ≠ 0 then .error .reservedBits
  else match (opcField v).toNat with
    | 0x1 => decodePlain v .hashStart
    | 0x2 => decodePlain v .keyStart
    | 0x3 => decodePlain v .hmacInnerStart
    | 0x4 => .ok (.push ((nbm1Field v).toNat + 1))
    | 0x5 => decodePlain v .finish
    | 0x6 => decodePlain v .keyFinish
    | 0x7 => decodePlain v .hmacOuter
    | 0x8 => decodePlain v .verify
    | 0xF => decodePlain v .clear
    | _ => .error .reservedOpcode

/-- The word of a command, from the words of R104 and R109. `PUSH`'s count stands in `NBM1` as `n - 1`;
an ill-formed `PUSH` has no word, and what this gives for one has no meaning (DESIGN CHOICE, assumption 25). -/
def encode : Instr → Word
  | .hashStart => 0x00000001#32
  | .keyStart => 0x00000002#32
  | .hmacInnerStart => 0x00000003#32
  | .push n => 0#26 ++ (BitVec.ofNat 2 (n - 1) ++ 0x4#4)
  | .finish => 0x00000005#32
  | .keyFinish => 0x00000006#32
  | .hmacOuter => 0x00000007#32
  | .verify => 0x00000008#32
  | .clear => 0x0000000F#32

/-- The command the decoder reads from the word whose bits are `w`, cut to `nbits` bits. A command is exactly one
32-bit word (R100), so a longer number is none. -/
def decodeTableWord (nbits w : Nat) : Option Instr :=
  if w % 2 ^ nbits < 2 ^ 32 then
    match decode (BitVec.ofNat 32 (w % 2 ^ nbits)) with
    | .ok i => some i
    | .error _ => none
  else none

end Sys2Proof
end

