-- ==== Sys2Proof/Machine/Bytes.lean ====
section
/-! DEFINITION. Byte strings and the big-endian conversions (R13, R14, R78). -/

namespace Sys2Proof.Machine

/-- `be32(b0, b1, b2, b3)` (R14). -/
def be32 (b0 b1 b2 b3 : Byte) : Word := b0 ++ b1 ++ b2 ++ b3

/-- `bytes32(w) = (w[31:24], w[23:16], w[15:8], w[7:0])` (R14). -/
def bytes32 (w : Word) : List Byte :=
  [w.extractLsb' 24 8, w.extractLsb' 16 8, w.extractLsb' 8 8, w.extractLsb' 0 8]

/-- `be64bytes(v)`: the 8 bytes of a `u64`, most significant first (R14). -/
def be64bytes (v : BitVec 64) : List Byte :=
  [v.extractLsb' 56 8, v.extractLsb' 48 8, v.extractLsb' 40 8, v.extractLsb' 32 8,
   v.extractLsb' 24 8, v.extractLsb' 16 8, v.extractLsb' 8 8, v.extractLsb' 0 8]

/-- `ser(H)`: "each word in big-endian order, words in state order" (R14). -/
def ser (h : Words8) : List Byte := h.toList.flatMap bytes32

/-- `zeros(n)` (R13). -/
def zeros (n : Nat) : List Byte := List.replicate n 0#8

/-- `rep(b, n)` (R13). -/
def rep (b : Byte) (n : Nat) : List Byte := List.replicate n b

/-- A byte string as a 64-byte row: byte `i` of the string at index `i`, 0 past its end. -/
def toBytes64 (s : List Byte) : Bytes64 := Vector.ofFn fun i => s.getD i.val 0#8

/-- `B xor rep(b, 64)` (R251). -/
def xorRep (k : Bytes64) (b : Byte) : Bytes64 := Vector.ofFn fun i => k[i] ^^^ b

/-- `BUF[lo..hi) <- 0` (R170). -/
def zeroRange (buf : Bytes64) (lo hi : Nat) : Bytes64 :=
  Vector.ofFn fun i => if lo ≤ i.val ∧ i.val < hi then 0#8 else buf[i]

/-- `BUF[at..at + len(s)) <- s` (R170). -/
def writeBytes (buf : Bytes64) (start : Nat) (s : List Byte) : Bytes64 :=
  Vector.ofFn fun i => if start ≤ i.val then s.getD (i.val - start) buf[i] else buf[i]

end Sys2Proof.Machine
end

