-- ==== Sys2Proof/Machine/Compression.lean ====
section
/-! DEFINITION. The compression engine and the constant ROMs (43_compression.md), and the block parser
(42_block_parser.md) that feeds it. -/

namespace Sys2Proof.Machine

/-- `rotr(x, n)`, for `0 < n < 32` (R12). -/
def rotr (x : Word) (n : Nat) : Word := (x >>> n) ||| (x <<< (32 - n))

/-- `σ0` (R190). -/
def smallSigma0 (x : Word) : Word := rotr x 7 ^^^ rotr x 18 ^^^ (x >>> 3)

/-- `σ1` (R190). -/
def smallSigma1 (x : Word) : Word := rotr x 17 ^^^ rotr x 19 ^^^ (x >>> 10)

/-- `Σ0` (R191). -/
def bigSigma0 (x : Word) : Word := rotr x 2 ^^^ rotr x 13 ^^^ rotr x 22

/-- `Σ1` (R191). -/
def bigSigma1 (x : Word) : Word := rotr x 6 ^^^ rotr x 11 ^^^ rotr x 25

/-- `Ch` (R192). -/
def ch (x y z : Word) : Word := (x &&& y) ^^^ (~~~x &&& z)

/-- `Maj` (R192). -/
def maj (x y z : Word) : Word := (x &&& y) ^^^ (x &&& z) ^^^ (y &&& z)

/-- The round-constant ROM `Kc[0..63]`, row by row as R193 lists it, from general knowledge (PRESUMED, assumption 18). -/
def kc : List Word :=
  [0x428a2f98#32, 0x71374491#32, 0xb5c0fbcf#32, 0xe9b5dba5#32, 0x3956c25b#32, 0x59f111f1#32, 0x923f82a4#32, 0xab1c5ed5#32]
  ++ [0xd807aa98#32, 0x12835b01#32, 0x243185be#32, 0x550c7dc3#32, 0x72be5d74#32, 0x80deb1fe#32, 0x9bdc06a7#32, 0xc19bf174#32]
  ++ [0xe49b69c1#32, 0xefbe4786#32, 0x0fc19dc6#32, 0x240ca1cc#32, 0x2de92c6f#32, 0x4a7484aa#32, 0x5cb0a9dc#32, 0x76f988da#32]
  ++ [0x983e5152#32, 0xa831c66d#32, 0xb00327c8#32, 0xbf597fc7#32, 0xc6e00bf3#32, 0xd5a79147#32, 0x06ca6351#32, 0x14292967#32]
  ++ [0x27b70a85#32, 0x2e1b2138#32, 0x4d2c6dfc#32, 0x53380d13#32, 0x650a7354#32, 0x766a0abb#32, 0x81c2c92e#32, 0x92722c85#32]
  ++ [0xa2bfe8a1#32, 0xa81a664b#32, 0xc24b8b70#32, 0xc76c51a3#32, 0xd192e819#32, 0xd6990624#32, 0xf40e3585#32, 0x106aa070#32]
  ++ [0x19a4c116#32, 0x1e376c08#32, 0x2748774c#32, 0x34b0bcb5#32, 0x391c0cb3#32, 0x4ed8aa4a#32, 0x5b9cca4f#32, 0x682e6ff3#32]
  ++ [0x748f82ee#32, 0x78a5636f#32, 0x84c87814#32, 0x8cc70208#32, 0x90befffa#32, 0xa4506ceb#32, 0xbef9a3f7#32, 0xc67178f2#32]

/-- The initial-hash ROM `IV[0..7]` (R194), from general knowledge (PRESUMED, assumption 18). -/
def iv : Words8 :=
  #v[0x6a09e667#32, 0xbb67ae85#32, 0x3c6ef372#32, 0xa54ff53a#32, 0x510e527f#32, 0x9b05688c#32, 0x1f83d9ab#32, 0x5be0cd19#32]

/-- The recurrence of the message schedule for the next word, `W[t]` with `t` the words so far (R195). -/
def nextScheduleWord (w : List Word) : Word :=
  let t := w.length
  smallSigma1 (w.getD (t - 2) 0) + w.getD (t - 7) 0 + smallSigma0 (w.getD (t - 15) 0) + w.getD (t - 16) 0

/-- A schedule with `n` more words. -/
def extendSchedule : Nat → List Word → List Word
  | 0, w => w
  | n + 1, w => extendSchedule n (w ++ [nextScheduleWord w])

/-- `Schedule(M)`, `W[0..63]`: "words 0–15 are copied directly", the other 48 by the recurrence (R195). -/
def schedule (m : Block) : List Word := extendSchedule 48 m.toList

/-- The working variables `a..h` (R196). -/
structure Vars where
  /-- The eight variables, in order. -/
  (a b c d e f g h : Word)
deriving DecidableEq, Repr

/-- "Initialize eight working variables `a..h` from the current hash state", in order (R196). -/
def Vars.load (x : Words8) : Vars := ⟨x[0], x[1], x[2], x[3], x[4], x[5], x[6], x[7]⟩

/-- One round with its constant and its schedule word (R197): all eight assignments read the old values. -/
def Vars.round (k w : Word) (v : Vars) : Vars :=
  let t1 := v.h + bigSigma1 v.e + ch v.e v.f v.g + k + w
  let t2 := bigSigma0 v.a + maj v.a v.b v.c
  ⟨t1 + t2, v.a, v.b, v.c, v.d + t1, v.e, v.f, v.g⟩

/-- The rounds `t = 0 .. n-1` in increasing order (R197). -/
def rounds (w : List Word) (n : Nat) (v : Vars) : Vars :=
  (List.range n).foldl (fun v t => v.round (kc.getD t 0) (w.getD t 0)) v

/-- "Add the final working variables back into the hash state element-wise, modulo 2^32" (R198). -/
def addBack (x : Words8) (v : Vars) : Words8 :=
  #v[x[0] + v.a, x[1] + v.b, x[2] + v.c, x[3] + v.d, x[4] + v.e, x[5] + v.f, x[6] + v.g, x[7] + v.h]

/-- `Compress(H, M)` (R199). -/
def compress (x : Words8) (m : Block) : Words8 := addBack x (rounds (schedule m) 64 (Vars.load x))

/-- `ParseBlock(B)`: the hardware parser (R182). -/
def parseBlock (b : Bytes64) : Block :=
  Vector.ofFn fun j =>
    be32 (b[4 * j.val]'(by omega)) (b[4 * j.val + 1]'(by omega)) (b[4 * j.val + 2]'(by omega)) (b[4 * j.val + 3]'(by omega))

end Sys2Proof.Machine
end

