-- ==== Sys2Proof/Config.lean ====
section
/-! DEFINITION. What the spec leaves to the platform or leaves open (R10, 92_eei_decisions.md "Open parameters"), as
constants without a body, and the one free value: the engine scratch (R50). -/

namespace Sys2Proof

/-- The engine scratch of R50: the schedule `W[0..63]`, the working variables `a..h` and the round counter. -/
structure Scratch where
  /-- `W[0..63]`. -/
  w : Vector Word 64
  /-- `a..h`, in this order. -/
  vars : Words8
  /-- The round counter. -/
  round : Nat
deriving DecidableEq, Repr, Inhabited

namespace Config

/-- Which multiple of 256 `BASE` is (R10, R82; DESIGN CHOICE, assumption 10). -/
opaque basePage : Nat

/-- `BASE`, the byte address of the register window: "`OPEN`, a multiple of 256" (R10). -/
def base : Nat := 256 * basePage

/-- `LAT_CMD` less one (assumption 14). -/
opaque latCmdPred : Nat

/-- `LAT_CMD`, an integer of at least 1 (R10, R345). -/
def latCmd : Nat := latCmdPred + 1

/-- `LAT_BLOCK` less one. -/
opaque latBlockPred : Nat

/-- `LAT_BLOCK`, an integer of at least 1 (R10, R345). -/
def latBlock : Nat := latBlockPred + 1

/-- `LAT_VERIFY` less one. -/
opaque latVerifyPred : Nat

/-- `LAT_VERIFY`, an integer of at least 1 (R10, R283, R345). -/
def latVerify : Nat := latVerifyPred + 1

/-- `IRQ_LINE`: the line of the platform's interrupt controller that `irq` drives (R309; assumption 16). -/
opaque irqLine : Nat

/-- `IRQ_LINE`'s other half, the priority of `irq` at that controller (R309). -/
opaque irqPriority : Nat

/-- What the engine scratch holds after the `n`-th event that leaves it unspecified (R50, R55): a free value
(DESIGN CHOICE, assumption 3). -/
opaque freeScratch : Nat → Scratch

end Config
end Sys2Proof
end

