-- ==== Sys2Proof/Machine/State.lean ====
section
/-! DEFINITION. The state of the core (R22), the accesses still to come, and the ways a step can stop. -/

namespace Sys2Proof.Machine

/-- The session mode `MODE` (R43). -/
inductive Mode where
  /-- 0: no session is open. -/
  | idle
  /-- 1: a plain digest session. -/
  | hash
  /-- 2: a key session. -/
  | key
  /-- 3: an HMAC inner session. -/
  | inner
deriving DecidableEq, Repr

/-- `DSRC`: where the held digest came from (R34). -/
inductive Dsrc where
  /-- 0: no digest. -/
  | none
  /-- 1: a `FINISH` of a HASH session. -/
  | hash
  /-- 2: a `FINISH` of an HMAC inner session. -/
  | inner
  /-- 3: an `HMAC_OUTER`. -/
  | tag
deriving DecidableEq, Repr

/-- `ERRCODE` (R302). The reserved codes 6 to 15 are "never produced" and have no constructor
(DEDUCED, assumption 22). -/
inductive ErrCode where
  /-- 0: no error since the last clear. -/
  | none
  /-- 1: ILLEGAL_CMD (R303). -/
  | illegalCmd
  /-- 2: BUSY (R304). -/
  | busy
  /-- 3: STATE (R305). -/
  | state
  /-- 4: LENGTH (R306). -/
  | length
  /-- 5: PAD_INVARIANT (R307); no rule of the spec produces it. -/
  | padInvariant
deriving DecidableEq, Repr

/-- The record in flight, `PENDING = (cmd, din)` (R49). -/
structure Pending where
  /-- The accepted command word. -/
  cmd : Word
  /-- `DIN` at acceptance. -/
  din : Word
deriving DecidableEq, Repr

/-- The session state but for `MODE`: the hash state, the block buffer with its count, the byte counter. -/
structure Session where
  /-- `H[0..7]` (R44). -/
  h : Words8
  /-- `BUF[0..63]` (R45). -/
  buf : Bytes64
  /-- `BCNT`, 0 to 64 (R45); that it stays in that range is an invariant (DESIGN CHOICE, assumption 28). -/
  bcnt : Nat
  /-- `NBYTES`, 61 bits (R46). -/
  nbytes : BitVec 61
deriving DecidableEq, Repr

/-- A step of one of the agents, or of the reset input (R17, R19). -/
inductive Event where
  /-- The host reads the register at a byte offset in the window, `BusRead(off)` (R70). -/
  | read (off : BitVec 8)
  /-- The host writes the register at a byte offset in the window, `BusWrite(off, v)` (R70). -/
  | write (off : BitVec 8) (v : Word)
  /-- The host reads a byte address of its bus; it reaches the core only inside the window at `BASE` (R70). -/
  | readAt (addr : Nat)
  /-- The host writes a byte address of its bus (R70). -/
  | writeAt (addr : Nat) (v : Word)
  /-- The engine's turn: it completes the command in flight, if there is one (R135). -/
  | engine
  /-- A reset (R330). -/
  | reset
deriving DecidableEq, Repr

/-- The whole state (R22), as the spec groups it, and three fields of the model's own at the end.
`BUSY` is "1 exactly while a command is in flight (`PENDING` ≠ none)" (R28), so `pending` holds it: `State.busy`. -/
structure State where
  /-- `CTRL.IRQ_EN` (R26). -/
  irqEn : Bool
  /-- `DIN` (R37). -/
  din : Word
  /-- `TAG_LEN` (R39). -/
  tagLen : Word
  /-- `TAG[0..7]` (R41). -/
  tag : Words8
  /-- `MODE` (R43). -/
  mode : Mode
  /-- `H`, `BUF`, `BCNT`, `NBYTES` (R44 to R46). -/
  sess : Session
  /-- `K0[0..63]` (R47). -/
  k0 : Bytes64
  /-- `KEY_VALID` (R32). -/
  keyValid : Bool
  /-- `D[0..7]` (R48). -/
  d : Words8
  /-- `DIGEST_VALID` (R31). -/
  digestValid : Bool
  /-- `DSRC` (R34). -/
  dsrc : Dsrc
  /-- `RESULT_VALID` (R33). -/
  resultValid : Bool
  /-- `MATCH` (R33). -/
  matched : Bool
  /-- `DONE` (R29). -/
  done : Bool
  /-- `ERR` (R30). -/
  err : Bool
  /-- `ERRCODE` (R30). -/
  errcode : ErrCode
  /-- `PENDING`, and with it `BUSY` (R28, R49). -/
  pending : Option Pending
  /-- The engine scratch (R50): written with a free value, read by nothing. -/
  scratch : Scratch
  /-- The model's own: the steps still to come, in the order the core receives them (R84; DESIGN CHOICE, assumption 5). -/
  inputs : List Event
  /-- The model's own: the word the last host read returned, `none` before any read (DESIGN CHOICE,
  assumption 6). -/
  lastRead : Option Word
  /-- The model's own: how many free values of the scratch have been used (DESIGN CHOICE, assumption 4). -/
  freeSeq : Nat
deriving DecidableEq, Repr

/-- Why the machine stops with a fault. No run from reset meets one of these. -/
inductive Fault where
  /-- The padder's assertion failed (R166, R307): `Finalise`, in `FINISH`, `KEY_FINISH` and `HMAC_OUTER`. Safe:
  the spec calls it "a fault of the model", and it is proved not to happen (DEDUCED, assumption 21). -/
  | padInvariant
  /-- The word in flight is no command (R135): the engine's turn. Safe: `PENDING` only ever holds an accepted
  word, so only a state that no run reaches meets it (DESIGN CHOICE, assumption 20). -/
  | pendingWordIllegal
deriving DecidableEq, Repr

/-- Why an instruction has no meaning. -/
inductive Refusal where
  /-- An instruction without a meaning yet: `exec`'s refused arms alone. Safe. -/
  | notModelled (mnemonic : String)
  /-- A `PUSH` with a byte count outside 1 to 4, which "no word encodes" (R109): `exec` on a term that no
  decoder gives. Safe (DESIGN CHOICE, assumption 19). -/
  | noEncoding
deriving DecidableEq, Repr

/-- What a step answers. -/
abbrev Outcome := Host.Outcome State Fault Refusal

/-- `STATUS.BUSY` (R28): 1 exactly while a command is in flight (DEDUCED, assumption 7). -/
def State.busy (s : State) : Bool := s.pending.isSome

/-- A session with nothing in it: every part at its reset value (R55). -/
def Session.reset : Session :=
  { h := zeroWords, buf := zeroBytes, bcnt := 0, nbytes := 0 }

/-- The core right after reset (R55, R332), with no access under way. The scratch's value here is the model's
(DESIGN CHOICE, assumption 2), and so are the values of the model's own fields (assumptions 4 to 6). -/
def State.reset : State :=
  { irqEn := false
    din := 0
    tagLen := 0
    tag := zeroWords
    mode := .idle
    sess := Session.reset
    k0 := zeroBytes
    keyValid := false
    d := zeroWords
    digestValid := false
    dsrc := .none
    resultValid := false
    matched := false
    done := false
    err := false
    errcode := .none
    pending := none
    scratch := { w := Vector.replicate 64 0#32, vars := zeroWords, round := 0 }
    inputs := []
    lastRead := none
    freeSeq := 0 }

end Sys2Proof.Machine
end

