-- ==== Sys2Proof/Machine/Session.lean ====
section
/-! DEFINITION. The operations on an open session: starting, absorbing, the hardware padder, ending
(41_padder.md, 44_digest_session.md, 45_hmac.md). -/

namespace Sys2Proof.Machine

/-- `H <- IV ; BUF <- zeros(64) ; BCNT <- 0 ; NBYTES <- 0` (R223, R253). -/
def Session.start : Session := { h := iv, buf := zeroBytes, bcnt := 0, nbytes := 0 }

/-- A session whose first block is a padded key, "held lazily": `H <- IV ; BUF <- … ; BCNT <- 64 ; NBYTES <- 64`
(R256, R257). -/
def Session.startWithBlock (block : Bytes64) : Session := { h := iv, buf := block, bcnt := 64, nbytes := 64 }

/-- `H <- Compress(H, ParseBlock(BUF)) ; BUF <- zeros(64) ; BCNT <- 0` (R170, R222). -/
def Session.compressBuf (x : Session) : Session :=
  { x with h := compress x.h (parseBlock x.buf), buf := zeroBytes, bcnt := 0 }

/-- The lazily held full block is compressed when one more byte arrives or the session closes (R170, R222). -/
def Session.flushFull (x : Session) : Session := if x.bcnt = 64 then x.compressBuf else x

/-- `BUF[BCNT] <- b ; BCNT <- BCNT + 1` (R170, R222). -/
def Session.putByte (b : Byte) (x : Session) : Session :=
  { x with buf := x.buf.setIfInBounds x.bcnt b, bcnt := x.bcnt + 1 }

/-- `Absorb(b)` (R222). -/
def Session.absorb (b : Byte) (x : Session) : Session :=
  let y := x.flushFull.putByte b
  { y with nbytes := y.nbytes + 1 }

/-- `Absorb` for each byte in turn: "each `Absorb` sees the state the previous one left" (R222). -/
def Session.absorbAll (bytes : List Byte) (x : Session) : Session := bytes.foldl (fun y b => y.absorb b) x

/-- The 1-bit and, where it leaves no room for the length field, the first of two padding blocks (R170). -/
def Session.padMark (x : Session) : Session :=
  let y := x.flushFull.putByte 0x80#8
  if y.bcnt > 56 then { y with buf := zeroRange y.buf y.bcnt 64 }.compressBuf else y

/-- The zero bits and the length field `8 · NBYTES`, which fill the last block (R170). -/
def Session.padLength (x : Session) : Session :=
  { x with
    buf := writeBytes (zeroRange x.buf x.bcnt 56) 56 (be64bytes (BitVec.ofNat 64 (8 * x.nbytes.toNat)))
    bcnt := 64 }

/-- `Finalise()` (R170): the final hash state, or `none` where the assertion of R166 fails. -/
def Session.finalise (x : Session) : Option Words8 :=
  let y := x.padMark.padLength
  if y.bcnt = 64 then some (compress y.h (parseBlock y.buf)) else none

/-- `H <- zeros ; BUF <- zeros(64) ; BCNT <- 0`, with `NBYTES` kept (R225, R255, R257; DEDUCED, assumption 17). -/
def Session.close (x : Session) : Session := { x with h := zeroWords, buf := zeroBytes, bcnt := 0 }

end Sys2Proof.Machine
end

