-- ==== Sys2Proof/Machine/Ops.lean ====
section
/-! DEFINITION. The operations the commands and the bus share: reporting an error and clearing it (60_exceptions.md),
acceptance and completion (40_command_protocol.md), reset (70_reset_and_hazards.md). -/

namespace Sys2Proof.Machine

/-- `raise Error(c)` (R301), the core's only "trap entry" (R311): the first error since the last clear is kept. -/
def raiseError (c : ErrCode) (s : State) : State :=
  { s with err := true, errcode := if s.err then s.errcode else c }

/-- The "return" of R311: `ERR <- 0` and `ERRCODE <- 0` (R74). -/
def clearError (s : State) : State := { s with err := false, errcode := .none }

/-- `Accept(v)` (R134): "Nothing else changes at acceptance". `BUSY <- 1` is `PENDING`'s presence. -/
def accept (v : Word) (s : State) : State :=
  { s with pending := some { cmd := v, din := s.din }, done := false, resultValid := false, matched := false }

/-- The engine scratch takes an unspecified value (R50, R55): the next free value (assumption 3). -/
def scrambleScratch (s : State) : State := { s with scratch := Config.freeScratch s.freeSeq, freeSeq := s.freeSeq + 1 }

/-- The end of `Complete` (R135): `PENDING <- none ; BUSY <- 0 ; DONE <- 1`. -/
def retire (s : State) : State := scrambleScratch { s with pending := none, done := true }

/-- `Complete` (R135) for a command whose `Exec` answers `o`. -/
def complete (o : Outcome) : Outcome :=
  match o with
  | .next s => .next (retire s)
  | .fault r => .fault r
  | .refused r => .refused r

/-- "every state of 10_state.md rule R55 <- its reset value" and `PENDING <- none` (R330). The model's own fields
go on: the accesses still to come are the host's, not the core's (DESIGN CHOICE, assumptions 5 and 6). -/
def resetCore (s : State) : State :=
  scrambleScratch { State.reset with inputs := s.inputs, lastRead := s.lastRead, freeSeq := s.freeSeq }

end Sys2Proof.Machine
end

