-- ==== Sys2Proof/Machine/Flags.lean ====
section
/-! DEFINITION. The `STATUS` word and its fields (R27), the write to it (R74), and the `irq` output (R53, R309). -/

namespace Sys2Proof.Machine

/-- `MODE` as `STATUS[18:16]` reads it (R35). -/
def Mode.code : Mode → BitVec 3
  | .idle => 0
  | .hash => 1
  | .key => 2
  | .inner => 3

/-- `DSRC` as `STATUS[13:12]` reads it (R34). -/
def Dsrc.code : Dsrc → BitVec 2
  | .none => 0
  | .hash => 1
  | .inner => 2
  | .tag => 3

/-- `ERRCODE` as `STATUS[11:8]` reads it (R302). -/
def ErrCode.code : ErrCode → BitVec 4
  | .none => 0
  | .illegalCmd => 1
  | .busy => 2
  | .state => 3
  | .length => 4
  | .padInvariant => 5

/-- A one-bit field of `STATUS` at bit `n`. -/
def flagAt (b : Bool) (n : Nat) : Word := (BitVec.ofBool b).setWidth 32 <<< n

/-- `STATUS_read` (R27). -/
def statusWord (s : State) : Word :=
  flagAt s.busy 0 ||| flagAt s.done 1 ||| flagAt s.err 2 ||| flagAt s.digestValid 3 ||| flagAt s.keyValid 4
    ||| flagAt s.resultValid 5 ||| flagAt s.matched 6 ||| (s.errcode.code.setWidth 32 <<< 8)
    ||| (s.dsrc.code.setWidth 32 <<< 12) ||| (s.mode.code.setWidth 32 <<< 16)

/-- A write of `v` to `STATUS` acts on the two W1C bits alone (R74). -/
def writeStatus (v : Word) (s : State) : State :=
  let s1 := if v.getLsbD 1 then { s with done := false } else s
  if v.getLsbD 2 then clearError s1 else s1

/-- `DIGEST_VALID = 1 and DSRC ∈ {HASH, TAG}`: the host may read `D` (R40), and `VERIFY` may use it (R137). -/
def digestReadable (s : State) : Bool := s.digestValid && (s.dsrc == .hash || s.dsrc == .tag)

/-- `irq = CTRL.IRQ_EN and (DONE or ERR)` (R53, R309). -/
def State.irq (s : State) : Bool := s.irqEn && (s.done || s.err)

/-- The level of a line of the platform's interrupt controller, as far as the core drives it: `irq` on
`IRQ_LINE`, nothing on any other (R309). -/
def State.irqOnLine (s : State) (line : Nat) : Bool := line == Config.irqLine && s.irq

end Sys2Proof.Machine
end

