-- ==== Sys2Proof/Machine/Protocol.lean ====
section
/-! DEFINITION. The protocol every command goes through (R130 to R138): which commands are admitted in which state,
and one step of a command, which is its acceptance or its completion. -/

namespace Sys2Proof.Machine

/-- `Pre_state(c)`, row by row as R137 gives it. -/
def preState : Instr → State → Bool
  | .hashStart, s => s.mode == .idle
  | .keyStart, s => s.mode == .idle
  | .hmacInnerStart, s => s.mode == .idle && s.keyValid
  | .push _, s => s.mode == .hash || s.mode == .key || s.mode == .inner
  | .finish, s => s.mode == .hash || s.mode == .inner
  | .keyFinish, s => s.mode == .key
  | .hmacOuter, s => s.mode == .idle && s.keyValid && s.digestValid && s.dsrc == .inner
  | .verify, s => s.mode == .idle && digestReadable s
  | .clear, _ => true

/-- `NBYTES + n ≤ 2^61 - 1`, for a `PUSH` (R133, R306); no other command has a length check. -/
def lengthOk : Instr → State → Bool
  | .push n, s => decide (s.sess.nbytes.toNat + n ≤ 2 ^ 61 - 1)
  | .hashStart, _ => true
  | .keyStart, _ => true
  | .hmacInnerStart, _ => true
  | .finish, _ => true
  | .keyFinish, _ => true
  | .hmacOuter, _ => true
  | .verify, _ => true
  | .clear, _ => true

/-- The tests of `Check` that follow `BUSY` and `Decode`, in order (R133). -/
def precheck (i : Instr) (s : State) : Option ErrCode :=
  if preState i s then if lengthOk i s then none else some .length else some .state

/-- A command word that has reached an idle core: refused with its error, or accepted (R130). `encode i`
is the word that was written (DEDUCED, assumption 9). -/
def present (i : Instr) (s : State) : Outcome :=
  match precheck i s with
  | some e => .next (raiseError e s)
  | none => .next (accept (encode i) s)

/-- One step of command `i`, whose `Exec` is `effect` (R135). With nothing in flight the command has just been
written to `CMD`: it is checked and accepted or refused (R130). With a command in flight the step is the
engine's, and it is the completion of `i` with the `DIN` that acceptance latched (R134, R135). One meaning for both
steps is the model's form (DESIGN CHOICE, assumption 8). -/
def runCommand (i : Instr) (effect : Word → State → Outcome) (s : State) : Outcome :=
  match s.pending with
  | none => present i s
  | some p => complete (effect p.din s)

end Sys2Proof.Machine
end

