-- ==== Sys2Proof/Machine/ClearCommand.lean ====
section
/-! DEFINITION. The shell's own command, `CLEAR` (R139). -/

namespace Sys2Proof.Machine

/-- `Exec(CLEAR, din)` (R139): "every state of 10_state.md rule R55 except CTRL <- its reset value". `Complete`
then leaves the scratch unspecified, and ends the command (R135). -/
def effectClear (_din : Word) (s : State) : Outcome :=
  .next { State.reset with
    irqEn := s.irqEn
    scratch := s.scratch
    inputs := s.inputs
    lastRead := s.lastRead
    freeSeq := s.freeSeq }

/-- `CLEAR` (R139). -/
def execClear (s : State) : Outcome := runCommand .clear effectClear s

end Sys2Proof.Machine
end

