-- ==== Sys2Proof/Machine/Operands.lean ====
section
/-! DEFINITION. What commands take as data: the bytes of a `PUSH`, the received tag; and the register window's
addresses. -/

namespace Sys2Proof.Machine

/-- The first `n` bytes of `din`, "first byte = din[31:24]" (R77, R224). -/
def pushBytes (n : Nat) (din : Word) : List Byte := (bytes32 din).take n

/-- A register of the window (R23). -/
inductive Reg where
  /-- `ID` (R24). -/
  | id
  /-- `VERSION` (R25). -/
  | version
  /-- `CTRL` (R26). -/
  | ctrl
  /-- `STATUS` (R27). -/
  | status
  /-- `CMD` (R36). -/
  | cmd
  /-- `DIN` (R37). -/
  | din
  /-- `LEN_LO` (R38). -/
  | lenLo
  /-- `LEN_HI` (R38). -/
  | lenHi
  /-- `TAG_LEN` (R39). -/
  | tagLen
  /-- `DIGEST[i]` (R40). -/
  | digest (i : Fin 8)
  /-- `TAG[i]` (R41). -/
  | tag (i : Fin 8)
  /-- A reserved offset (R42). -/
  | reserved
deriving DecidableEq, Repr

/-- The word index of a byte offset: bits [1:0] are ignored, `off and 0xFC` (R70, R71; the access's width
is not represented: assumption 11). -/
def wordIndex (off : BitVec 8) : Nat := (off &&& 0xFC#8).toNat / 4

/-- The register at a word index of the window (R23). -/
def regAtIndex (k : Nat) : Reg :=
  match k with
  | 0 => .id
  | 1 => .version
  | 2 => .ctrl
  | 3 => .status
  | 4 => .cmd
  | 5 => .din
  | 6 => .lenLo
  | 7 => .lenHi
  | 8 => .tagLen
  | k =>
    if 16 ≤ k ∧ k < 24 then .digest (Fin.ofNat 8 (k - 16))
    else if 24 ≤ k ∧ k < 32 then .tag (Fin.ofNat 8 (k - 24))
    else .reserved

/-- The register at a byte offset of the window (R23, R70). -/
def regAt (off : BitVec 8) : Reg := regAtIndex (wordIndex off)

/-- The offset, within the window, of an access to a byte address of the host's bus: `BASE ≤ addr < BASE + 256`,
and none outside it, since "Addresses outside the window do not reach the core" (R70). -/
def windowOffset (addr : Nat) : Option (BitVec 8) :=
  if Config.base ≤ addr ∧ addr < Config.base + 256 then some (BitVec.ofNat 8 (addr - Config.base)) else none

end Sys2Proof.Machine
end

