-- ==== Sys2Proof/Machine/DigestCommands.lean ====
section
/-! DEFINITION. The digest session's commands (44_digest_session.md): `HASH_START`, `PUSH`, `FINISH`. -/

namespace Sys2Proof.Machine

/-- `Exec(HASH_START, din)` (R223). -/
def effectHashStart (_din : Word) (s : State) : Outcome :=
  .next { s with mode := .hash, sess := Session.start, d := zeroWords, digestValid := false, dsrc := .none }

/-- `HASH_START` (R223). -/
def execHashStart (s : State) : Outcome := runCommand .hashStart effectHashStart s

/-- `Exec(PUSH(n), din)` (R224): the same in every session. -/
def effectPush (n : Nat) (din : Word) (s : State) : Outcome :=
  .next { s with sess := s.sess.absorbAll (pushBytes n din) }

/-- `PUSH n` (R224). "no word encodes" a count outside 1 to 4 (R109). -/
def execPush (n : Nat) (s : State) : Outcome :=
  if 1 ≤ n ∧ n ≤ 4 then runCommand (.push n) (effectPush n) s else .refused .noEncoding

/-- `Exec(FINISH, din)` (R225). -/
def effectFinish (_din : Word) (s : State) : Outcome :=
  match s.sess.finalise with
  | none => .fault .padInvariant
  | some hf =>
    .next { s with
      d := hf
      digestValid := true
      dsrc := if s.mode = .hash then .hash else .inner
      mode := .idle
      sess := s.sess.close }

/-- `FINISH` (R225). -/
def execFinish (s : State) : Outcome := runCommand .finish effectFinish s

end Sys2Proof.Machine
end

