-- ==== Sys2Proof/Machine/HmacCommands.lean ====
section
/-! DEFINITION. The HMAC commands (45_hmac.md): `KEY_START`, `KEY_FINISH`, `HMAC_INNER_START`, `HMAC_OUTER`. -/

namespace Sys2Proof.Machine

/-- `Exec(KEY_START, din)` (R253): "any key held before is destroyed". -/
def effectKeyStart (_din : Word) (s : State) : Outcome :=
  .next { s with
    mode := .key
    sess := Session.start
    k0 := zeroBytes
    keyValid := false
    d := zeroWords
    digestValid := false
    dsrc := .none }

/-- `KEY_START` (R253). -/
def execKeyStart (s : State) : Outcome := runCommand .keyStart effectKeyStart s

/-- The end of `KEY_FINISH` with the normalised key it stores (R255). -/
def storeKey (k : Bytes64) (s : State) : State :=
  { s with k0 := k, keyValid := true, mode := .idle, sess := s.sess.close }

/-- `Exec(KEY_FINISH, din)` (R255): a key of at most 64 bytes is taken as the buffer holds it, a longer one is
hashed. -/
def effectKeyFinish (_din : Word) (s : State) : Outcome :=
  if s.sess.nbytes.toNat ≤ 64 then .next (storeKey s.sess.buf s)
  else match s.sess.finalise with
    | none => .fault .padInvariant
    | some hf => .next (storeKey (toBytes64 (ser hf ++ zeros 32)) s)

/-- `KEY_FINISH` (R255). -/
def execKeyFinish (s : State) : Outcome := runCommand .keyFinish effectKeyFinish s

/-- `Exec(HMAC_INNER_START, din)` (R256). -/
def effectHmacInnerStart (_din : Word) (s : State) : Outcome :=
  .next { s with
    mode := .inner
    sess := Session.startWithBlock (xorRep s.k0 0x36#8)
    d := zeroWords
    digestValid := false
    dsrc := .none }

/-- `HMAC_INNER_START` (R256). -/
def execHmacInnerStart (s : State) : Outcome := runCommand .hmacInnerStart effectHmacInnerStart s

/-- The outer session when all 32 bytes of the inner digest are in (R257). -/
def outerSession (k0 : Bytes64) (inner : Words8) : Session :=
  (Session.startWithBlock (xorRep k0 0x5c#8)).absorbAll (ser inner)

/-- `Exec(HMAC_OUTER, din)` (R257): the key is consumed. -/
def effectHmacOuter (_din : Word) (s : State) : Outcome :=
  match (outerSession s.k0 s.d).finalise with
  | none => .fault .padInvariant
  | some hf =>
    .next { s with
      d := hf
      digestValid := true
      dsrc := .tag
      k0 := zeroBytes
      keyValid := false
      sess := (outerSession s.k0 s.d).close }

/-- `HMAC_OUTER` (R257). -/
def execHmacOuter (s : State) : Outcome := runCommand .hmacOuter effectHmacOuter s

end Sys2Proof.Machine
end

