-- ==== Sys2Proof/Machine/Digest.lean ====
section
/-! DEFINITION. The algorithm as the source states it, on byte strings: `Pad` (R160), `Parse` (R180), `Digest` (R220),
`NormKey` and `Hmac` (R250, R252), `CtEq` and `Verify` (R280, R281). The registers never run these: the claims hold
the register machine against them. -/

namespace Sys2Proof.Machine

/-- The bits of a number, `n` of them, most significant first. -/
def bitsMsbFirst (n : Nat) (v : Nat) : List Bool := (List.range n).map fun i => v.testBit (n - 1 - i)

/-- `bits(s)`: "the bits of `s[0]` first, each byte most significant bit first" (R13). -/
def bitString (s : List Byte) : List Bool := s.flatMap fun b => bitsMsbFirst 8 b.toNat

/-- Eight bits as a byte, first bit = bit 7 (R160). -/
def packByte (bits : List Bool) : Byte := BitVec.ofNat 8 (bits.foldl (fun v b => 2 * v + b.toNat) 0)

/-- The first `n` bytes of a bit string, 8 bits a byte (R160). -/
def packBytes : Nat → List Bool → List Byte
  | 0, _ => []
  | n + 1, bits => packByte (bits.take 8) :: packBytes n (bits.drop 8)

/-- `k = (447 - L) mod 512`, with the mathematical `mod` (R160, R161). -/
def padZeroBits (bitLength : Nat) : Nat := ((447 - (bitLength : Int)) % 512).toNat

/-- The bits of `Pad(s)`: `message ‖ 1-bit ‖ k zero-bits ‖ 64-bit big-endian original-bit-length` (R160). -/
def padBits (s : List Byte) : List Bool :=
  bitString s ++ [true] ++ List.replicate (padZeroBits (8 * s.length)) false ++ bitsMsbFirst 64 (8 * s.length)

/-- `Pad(s)` (R160), defined for `len(s) ≤ 2^61 - 1` (R167); past that its value has no meaning (assumption 25). -/
def pad (s : List Byte) : List Byte := packBytes ((padBits s).length / 8) (padBits s)

/-- `z = (55 - len(s)) mod 64`, the zero bytes of the byte form (R162). -/
def padZeroBytes (length : Nat) : Nat := ((55 - (length : Int)) % 64).toNat

/-- The byte form of `Pad(s)` (R162). -/
def padByteForm (s : List Byte) : List Byte :=
  s ++ [0x80#8] ++ zeros (padZeroBytes s.length) ++ be64bytes (BitVec.ofNat 64 (8 * s.length))

/-- Block `b` of `Parse(p)` (R180). -/
def blockOf (p : List Byte) (b : Nat) : Block :=
  Vector.ofFn fun j =>
    be32 (p.getD (64 * b + 4 * j.val) 0) (p.getD (64 * b + 4 * j.val + 1) 0)
      (p.getD (64 * b + 4 * j.val + 2) 0) (p.getD (64 * b + 4 * j.val + 3) 0)

/-- `Parse(p)`, for `len(p)` a multiple of 64 (R180). `Pad` gives no other length, and "a use on any other length
is unreachable" (R181): the bytes after the last whole block are left out there (DESIGN CHOICE, assumption 24). -/
def parse (p : List Byte) : List Block := (List.range (p.length / 64)).map (blockOf p)

/-- The hash state after a string of blocks, in order, from `IV` (R220, R202). -/
def chain (blocks : List Block) : Words8 := blocks.foldl compress iv

/-- The final hash state of `Digest(s)`, before serialisation (R220). -/
def digestState (s : List Byte) : Words8 := chain (parse (pad s))

/-- `Digest(s)` for `len(s) ≤ 2^61 - 1`, 32 bytes (R220). -/
def digest (s : List Byte) : List Byte := ser (digestState s)

/-- `NormKey(k)` (R250): hashed if longer than 64 bytes, then padded with zeros on the right. -/
def normKey (k : List Byte) : Bytes64 := toBytes64 (if k.length > 64 then digest k else k)

/-- `Digest(inner_key ‖ m)` with `inner_key = K0 xor rep(0x36, 64)` (R251, R252). -/
def innerDigest (k0 : Bytes64) (m : List Byte) : List Byte := digest ((xorRep k0 0x36#8).toList ++ m)

/-- `Hmac(k, m)` (R252), defined for `len(m) ≤ 2^61 - 65`. -/
def hmac (k m : List Byte) : List Byte :=
  digest ((xorRep (normKey k) 0x5c#8).toList ++ innerDigest (normKey k) m)

/-- `CtEq(a, b)`, in the loop form that compares every byte (R280). -/
def ctEq (a b : List Byte) : Bool :=
  (List.zipWith (· ^^^ ·) a b).foldl (fun diff x => diff ||| x) 0#8 == 0#8

/-- `Verify(expected, r)` (R281). -/
def verifyTag (expected r : List Byte) : Bool := decide (r.length = 32) && ctEq expected (r.take 32)

end Sys2Proof.Machine
end

