-- ==== Sys2Proof/Machine/VerifyCommand.lean ====
section
/-! DEFINITION. The comparator's command, `VERIFY` (46_comparator.md). -/

namespace Sys2Proof.Machine

/-- `len_ok and eq` of R282: both operands are always evaluated (R281). -/
def verdict (s : State) : Bool := decide (s.tagLen = 32) && ctEq (ser s.d) (ser s.tag)

/-- `Exec(VERIFY, din)` (R282). -/
def effectVerify (_din : Word) (s : State) : Outcome :=
  .next { s with resultValid := true, matched := verdict s }

/-- `VERIFY` (R282). -/
def execVerify (s : State) : Outcome := runCommand .verify effectVerify s

end Sys2Proof.Machine
end

