-- ==== Sys2Proof/Machine/Dispatch.lean ====
section
/-! DEFINITION. One arm per command: the meaning it calls. -/

namespace Sys2Proof.Machine

/-- One step of a command: its acceptance where nothing is in flight, its completion where it is (R130, R135). -/
def exec (i : Instr) (s : State) : Host.Outcome State Fault Refusal :=
  match i with
  | .hashStart => Sys2Proof.Machine.execHashStart s
  | .keyStart => Sys2Proof.Machine.execKeyStart s
  | .hmacInnerStart => Sys2Proof.Machine.execHmacInnerStart s
  | .push n => Sys2Proof.Machine.execPush n s
  | .finish => Sys2Proof.Machine.execFinish s
  | .keyFinish => Sys2Proof.Machine.execKeyFinish s
  | .hmacOuter => Sys2Proof.Machine.execHmacOuter s
  | .verify => Sys2Proof.Machine.execVerify s
  | .clear => Sys2Proof.Machine.execClear s

end Sys2Proof.Machine
end

