-- ==== Sys2Proof/Machine/Bus.lean ====
section
/-! DEFINITION. The register window (20_memory.md): reads, writes, the write to `CMD`; and the engine's turn. -/

namespace Sys2Proof.Machine

/-- `Read(off)` at a register (R72). Every read is free of side effects. -/
def readReg (r : Reg) (s : State) : Word :=
  match r with
  | .id => 0x53323536#32
  | .version => 0x00000001#32
  | .ctrl => (BitVec.ofBool s.irqEn).setWidth 32
  | .status => statusWord s
  | .cmd => 0
  | .din => s.din
  | .lenLo => s.sess.nbytes.setWidth 32
  | .lenHi => (s.sess.nbytes.extractLsb' 32 29).setWidth 32
  | .tagLen => s.tagLen
  | .digest i => if digestReadable s then s.d[i] else 0
  | .tag i => s.tag[i]
  | .reserved => 0

/-- `BusRead(off)` as a value (R70, R72). -/
def readWindow (off : BitVec 8) (s : State) : Word := readReg (regAt off) s

/-- `CommandWrite(v)` (R130): `BUSY` is tested before the word is decoded, and an illegal word before the state
(R133). A legal word's own checks and its acceptance are its meaning's. -/
def commandWrite (v : Word) (s : State) : Outcome :=
  if s.busy then .next (raiseError .busy s)
  else match decode v with
    | .error _ => .next (raiseError .illegalCmd s)
    | .ok i => exec i s

/-- A write to `TAG_LEN` or `TAG[i]`, refused while busy (R75). -/
def writeUnlessBusy (s : State) (written : State) : Outcome :=
  if s.busy then .next (raiseError .busy s) else .next written

/-- `Write(off, v)` at a register (R73). -/
def writeReg (r : Reg) (v : Word) (s : State) : Outcome :=
  match r with
  | .id => .next s
  | .version => .next s
  | .ctrl => .next { s with irqEn := v.getLsbD 0 }
  | .status => .next (writeStatus v s)
  | .cmd => commandWrite v s
  | .din => .next { s with din := v }
  | .lenLo => .next s
  | .lenHi => .next s
  | .tagLen => writeUnlessBusy s { s with tagLen := v }
  | .digest _ => .next s
  | .tag i => writeUnlessBusy s { s with tag := s.tag.set i v }
  | .reserved => .next s

/-- `BusRead(off)` as a step: the host has its word, and nothing of the core changes (R70, R72). -/
def busRead (off : BitVec 8) (s : State) : Outcome := .next { s with lastRead := some (readWindow off s) }

/-- `BusWrite(off, v)` as a step (R70, R73). -/
def busWrite (off : BitVec 8) (v : Word) (s : State) : Outcome := writeReg (regAt off) v s

/-- The engine's turn (R135): it completes the command in flight. With none in flight it has no step, and the
turn passes (DESIGN CHOICE, assumption 5). -/
def engineTurn (s : State) : Outcome :=
  match s.pending with
  | none => .next s
  | some p =>
    match decode p.cmd with
    | .ok i => exec i s
    | .error _ => .fault .pendingWordIllegal

/-- One step of the agent an event names (R17). A bus access outside the window does not reach the core (R70). -/
def takeEvent (e : Event) (s : State) : Outcome :=
  match e with
  | .read off => busRead off s
  | .write off v => busWrite off v s
  | .readAt addr =>
    match windowOffset addr with
    | some off => busRead off s
    | none => .next s
  | .writeAt addr v =>
    match windowOffset addr with
    | some off => busWrite off v s
    | none => .next s
  | .engine => engineTurn s
  | .reset => .next (resetCore s)

end Sys2Proof.Machine
end

