-- ==== Sys2Proof/Machine/Step.lean ====
section
/-! DEFINITION. One step of the whole: the next event in order of arrival, or the engine's turn where the host has
nothing more to say. -/

namespace Sys2Proof.Machine

/-- One step (R17, R84). The inputs arrive in order, and an `engine` event anywhere among them is the engine's turn
between two accesses (R135). Where no input is left the turn is the engine's: this is the fairness of R135 that
makes every accepted command complete; with nothing in flight either, the core runs nothing (R332).
DESIGN CHOICE, assumption 5. -/
def step (s : State) : Host.Outcome State Fault Refusal :=
  match s.inputs with
  | [] => engineTurn s
  | e :: rest => takeEvent e { s with inputs := rest }

/-- The state whose very next step is the write of a command word to `CMD` on a core with nothing in flight:
there the word is decoded and its command run (DESIGN CHOICE, assumption 1). -/
def State.withFetchWord (s : State) (nbits w : Nat) : State :=
  { s with
    pending := none
    inputs := .write 0x10#8 (BitVec.ofNat 32 (w % 2 ^ nbits)) :: s.inputs }

end Sys2Proof.Machine
end

