-- ==== Sys2Proof/Machine/HostSequences.lean ====
section
/-! DEFINITION. The host's side of the source's three operations (R108 to R118), as what the core sees of them: the
events of one run. `WAIT` polls `STATUS` any number of times before the engine completes and once after
(DESIGN CHOICE, assumption 26). -/

namespace Sys2Proof.Machine

/-- `WR <reg>, <imm32>` at a byte offset (R108). -/
def wr (off : Nat) (v : Word) : Event := .write (BitVec.ofNat 8 off) v

/-- A run of `WAIT` (R110) after an accepted command: polls that read `BUSY` = 1, the completion, and the read that
sees `BUSY` = 0. -/
def IsWait (es : List Event) : Prop :=
  ∃ polls : Nat, es = List.replicate polls (Event.read 0x0C#8) ++ [Event.engine, Event.read 0x0C#8]

/-- A run of `CMDW <mnemonic>` (R111). -/
def IsCmdW (i : Instr) (es : List Event) : Prop := ∃ w, IsWait w ∧ es = wr 0x10 (encode i) :: w

/-- A run of `PUSHW <v>, <n>` (R112). -/
def IsPushW (v : Word) (n : Nat) (es : List Event) : Prop := ∃ c, IsCmdW (.push n) c ∧ es = wr 0x14 v :: c

/-- A run of `PUSHSTR <s>` (R113): four bytes a push, then the one to three that are left. -/
def IsPushStr : List Byte → List Event → Prop
  | [], es => es = []
  | [a], es => IsPushW (be32 a 0 0 0) 1 es
  | [a, b], es => IsPushW (be32 a b 0 0) 2 es
  | [a, b, c], es => IsPushW (be32 a b c 0) 3 es
  | a :: b :: c :: d :: rest, es =>
    ∃ first more, IsPushW (be32 a b c d) 4 first ∧ IsPushStr rest more ∧ es = first ++ more

/-- A run of `HASH <s>` up to its `READDIGEST` (R115). -/
def IsHash (s : List Byte) (es : List Event) : Prop :=
  ∃ c1 p c2, IsCmdW .hashStart c1 ∧ IsPushStr s p ∧ IsCmdW .finish c2 ∧ es = c1 ++ p ++ c2

/-- A run of `LOADKEY <k>` (R116). -/
def IsLoadKey (k : List Byte) (es : List Event) : Prop :=
  ∃ c1 p c2, IsCmdW .keyStart c1 ∧ IsPushStr k p ∧ IsCmdW .keyFinish c2 ∧ es = c1 ++ p ++ c2

/-- A run of `HMAC <k>, <m>` up to its `READDIGEST` (R116). -/
def IsHmac (k m : List Byte) (es : List Event) : Prop :=
  ∃ l c1 p c2 c3, IsLoadKey k l ∧ IsCmdW .hmacInnerStart c1 ∧ IsPushStr m p ∧ IsCmdW .finish c2 ∧
    IsCmdW .hmacOuter c3 ∧ es = l ++ c1 ++ p ++ c2 ++ c3

/-- `r'`: the first 32 bytes of a received tag, "right-padded with zero bytes to 32 bytes" (R117). -/
def tagBytes (r : List Byte) : List Byte := r.take 32 ++ zeros (32 - r.length)

/-- `WR TAG[i], be32(r'[4i..4i+4))` for `i = 0..7` (R117). -/
def writeTagWords (r : List Byte) : List Event :=
  (List.range 8).map fun i =>
    wr (0x60 + 4 * i) (be32 ((tagBytes r).getD (4 * i) 0) ((tagBytes r).getD (4 * i + 1) 0)
      ((tagBytes r).getD (4 * i + 2) 0) ((tagBytes r).getD (4 * i + 3) 0))

/-- `WR TAG_LEN, len(r)`, where "A length of 2^32 or more is written as 0xFFFFFFFF" (R117). -/
def writeTagLen (r : List Byte) : Event :=
  wr 0x20 (if r.length < 2 ^ 32 then BitVec.ofNat 32 r.length else 0xFFFFFFFF#32)

/-- A run of `VERIFY_HMAC <k>, <m>, <r>` up to its reading of `STATUS` (R117). -/
def IsVerifyHmac (k m r : List Byte) (es : List Event) : Prop :=
  ∃ h c, IsHmac k m h ∧ IsCmdW .verify c ∧ es = h ++ writeTagWords r ++ [writeTagLen r] ++ c

/-- What `READDIGEST` names in a state: `bytes32(DIGEST[0]) ‖ … ‖ bytes32(DIGEST[7])` (R114). -/
def readDigest (s : State) : List Byte := (List.finRange 8).flatMap fun i => bytes32 (readReg (.digest i) s)

end Sys2Proof.Machine
end

