-- ==== Sys2Proof/Machine/Timing.lean ====
section
/-! DEFINITION. The latency structure (R345, R346) and the compression counts it rests on (R171, R228). The step
function reads none of it: completion is the engine's turn (R135; assumptions 14
and 15). -/

namespace Sys2Proof.Machine

/-- `nc_fin(c)` (R171): the compressions of `Finalise` entered with `BCNT = c`. -/
def ncFinalise (bcnt : Nat) : Nat := if bcnt ≤ 55 then 1 else 2

/-- The compressions a run of `Absorb` performs, counted as it goes: one where a byte meets a full buffer (R222). -/
def absorbCompressions : List Byte → Session → Nat
  | [], _ => 0
  | b :: rest, x => (if x.bcnt = 64 then 1 else 0) + absorbCompressions rest (x.absorb b)

/-- The compressions `Finalise` performs, counted as it goes: the held full block, the block that leaves no room for
the length field, and the last block (R170). -/
def finaliseCompressions (x : Session) : Nat :=
  (if x.bcnt = 64 then 1 else 0) + (if (x.flushFull.putByte 0x80#8).bcnt > 56 then 1 else 0) + 1

/-- `nc(cmd, state)` (R345). -/
def compressionCount (i : Instr) (s : State) : Nat :=
  match i with
  | .hashStart => 0
  | .keyStart => 0
  | .hmacInnerStart => 0
  | .clear => 0
  | .push n => if s.sess.bcnt + n > 64 then 1 else 0
  | .finish => ncFinalise s.sess.bcnt
  | .keyFinish => if s.sess.nbytes.toNat ≤ 64 then 0 else ncFinalise s.sess.bcnt
  | .hmacOuter => 2
  | .verify => 0

/-- `Latency(cmd, state)` in cycles (R345). -/
def latency (i : Instr) (s : State) : Nat :=
  match i with
  | .verify => Config.latVerify
  | i => Config.latCmd + compressionCount i s * Config.latBlock

end Sys2Proof.Machine
end

