-- ==== Sys2Proof/Safety.lean ====
section
/-! DEFINITION. The terms the claims use: the invariants, the refusals and the acceptance of a command word as the
rules write them, what a step leaves alone, and what the host can tell apart. -/

namespace Sys2Proof.Machine

/-! ### The session invariant -/

/-- `BCNT` of a session that has absorbed `n` bytes (R221). -/
def bcntOf (n : Nat) : Nat := if n = 0 then 0 else (n - 1) % 64 + 1

/-- The session invariant of R221: the session holds exactly the absorbed string `S`. -/
structure Represents (x : Session) (str : List Byte) : Prop where
  /-- `len(S) ≤ 2^61 - 1` (R46). -/
  fits : str.length ≤ 2 ^ 61 - 1
  /-- `n = len(S) = NBYTES`. -/
  nbytes : x.nbytes.toNat = str.length
  /-- `BCNT` from `n`. -/
  bcnt : x.bcnt = bcntOf str.length
  /-- `BUF[0..BCNT) = S[n - BCNT .. n)` and `BUF[BCNT..64) = zeros`. -/
  buf : x.buf = toBytes64 (str.drop (str.length - x.bcnt))
  /-- `H` is the chain over the whole blocks before. -/
  h : x.h = chain (parse (str.take (str.length - x.bcnt)))

/-! ### The invariants of the machine -/

/-- Relations between the parts of the state that every run keeps. -/
structure Inv (s : State) : Prop where
  /-- The word in flight is a command that was admitted, and still would be (R133, R136). -/
  pending : ∀ p, s.pending = some p → ∃ i, decode p.cmd = .ok i ∧ precheck i s = none
  /-- `DONE`, `RESULT_VALID` and `MATCH` are 0 while a command is in flight (R134, R342). -/
  inFlight : s.busy = true → s.done = false ∧ s.resultValid = false
  /-- "`MATCH` is 0 whenever `RESULT_VALID` is 0" (R33). -/
  verdict : s.resultValid = false → s.matched = false
  /-- A verdict is about a digest that the host may read (R33, R137). -/
  verdictOf : s.resultValid = true → digestReadable s = true
  /-- "while `ERR` = 0 it reads 0" (R30), and not otherwise (R302). -/
  errcode : s.err = false ↔ s.errcode = .none
  /-- "no rule of this spec reaches it" (R307). -/
  noPadInvariant : s.errcode ≠ .padInvariant
  /-- `DSRC` "is 0 exactly when `DIGEST_VALID` is 0" (R34). -/
  dsrc : s.digestValid = false ↔ s.dsrc = .none
  /-- "When `DIGEST_VALID` = 0, `D` holds zeros" (R48). -/
  noDigest : s.digestValid = false → s.d = zeroWords
  /-- "When `KEY_VALID` = 0, `K0` holds zeros" (R47). -/
  noKey : s.keyValid = false → s.k0 = zeroBytes
  /-- "Outside a session it holds 0", and `BUF` and `BCNT` with it (R44, R56). -/
  idle : s.mode = .idle → s.sess.h = zeroWords ∧ s.sess.buf = zeroBytes ∧ s.sess.bcnt = 0
  /-- `BCNT` follows `NBYTES` in a session (R221). -/
  bcnt : s.mode ≠ .idle → s.sess.bcnt = bcntOf s.sess.nbytes.toNat
  /-- "Bytes at index `BCNT` and above hold 0" (R45). -/
  bufTail : ∀ i : Fin 64, s.sess.bcnt ≤ i.val → s.sess.buf[i] = 0
  /-- A session start clears the digest, and nothing sets one inside a session (R223, R253, R256). -/
  session : s.mode ≠ .idle → s.digestValid = false
  /-- A key session has no key yet (R253). -/
  keySession : s.mode = .key → s.keyValid = false
  /-- An inner session has its key and its 64-byte first block (R225, R256). -/
  innerSession : s.mode = .inner → s.keyValid = true ∧ 64 ≤ s.sess.nbytes.toNat
  /-- An inner digest is held with the key it came from (R258). -/
  innerDigest : s.dsrc = .inner → s.keyValid = true

/-- What the state holds is what the algorithm defines: the open session is the session of some absorbed string, the
key is some key normalised, and the digest is the digest, the inner digest or the tag that `DSRC` names
(R47, R48, R221, R227, R255, R259). -/
structure Faithful (s : State) : Prop where
  /-- A HASH or KEY session holds an absorbed string (R221). -/
  session : s.mode = .hash ∨ s.mode = .key → ∃ str, Represents s.sess str
  /-- An INNER session holds the inner key and then a message (R256). -/
  innerSession : s.mode = .inner → ∃ m, Represents s.sess ((xorRep s.k0 0x36#8).toList ++ m)
  /-- `K0 = NormKey(k)` (R47). -/
  key : s.keyValid = true → ∃ k : List Byte, k.length ≤ 2 ^ 61 - 1 ∧ s.k0 = normKey k
  /-- A HASH digest (R227). -/
  hashDigest : s.dsrc = .hash → ∃ str : List Byte, str.length ≤ 2 ^ 61 - 1 ∧ ser s.d = digest str
  /-- An inner digest, under the key still held (R256). -/
  innerDigest : s.dsrc = .inner → ∃ m : List Byte, m.length ≤ 2 ^ 61 - 65 ∧ ser s.d = innerDigest s.k0 m
  /-- A tag (R259). -/
  tag : s.dsrc = .tag → ∃ k m : List Byte, k.length ≤ 2 ^ 61 - 1 ∧ m.length ≤ 2 ^ 61 - 65 ∧ ser s.d = hmac k m

/-! ### The command write, as the rules write it -/

/-- `Check(v)` (R133), test by test; `none` is OK. -/
def checkRule (v : Word) (s : State) : Option ErrCode :=
  if s.busy = true then some .busy
  else match decode v with
    | .error _ => some .illegalCmd
    | .ok c =>
      if preState c s = false then some .state
      else match c with
        | .push n => if s.sess.nbytes.toNat + n > 2 ^ 61 - 1 then some .length else none
        | _ => none

/-- `CommandWrite(v)` (R130). -/
def commandWriteRule (v : Word) (s : State) : State :=
  match checkRule v s with
  | some r => raiseError r s
  | none => accept v s

/-- A command or write refused with error `c`: it "changes nothing except `ERR` and `ERRCODE`" (R132), and of
several errors the first is kept (R301). -/
def RefusedWith (c : ErrCode) (s : State) (o : Outcome) : Prop :=
  o = .next { s with err := true, errcode := if s.err = true then s.errcode else c }

/-- A command accepted (R134). -/
def Accepted (i : Instr) (s : State) (o : Outcome) : Prop :=
  o = .next { s with
    pending := some { cmd := encode i, din := s.din }
    done := false
    resultValid := false
    matched := false }

/-! ### What a step leaves alone -/

/-- `CTRL`, `DIN`, `TAG_LEN`, `TAG` unchanged. -/
def HostRegsKept (s t : State) : Prop :=
  t.irqEn = s.irqEn ∧ t.din = s.din ∧ t.tagLen = s.tagLen ∧ t.tag = s.tag

/-- `ERR`, `ERRCODE` unchanged. -/
def ErrorKept (s t : State) : Prop := t.err = s.err ∧ t.errcode = s.errcode

/-- `MODE`, `H`, `BUF`, `BCNT`, `NBYTES` unchanged. -/
def SessionKept (s t : State) : Prop := t.mode = s.mode ∧ t.sess = s.sess

/-- `K0`, `KEY_VALID` unchanged. -/
def KeyKept (s t : State) : Prop := t.k0 = s.k0 ∧ t.keyValid = s.keyValid

/-- `D`, `DIGEST_VALID`, `DSRC` unchanged. -/
def ResultKept (s t : State) : Prop := t.d = s.d ∧ t.digestValid = s.digestValid ∧ t.dsrc = s.dsrc

/-- `RESULT_VALID`, `MATCH` unchanged. -/
def VerdictKept (s t : State) : Prop := t.resultValid = s.resultValid ∧ t.matched = s.matched

/-- The accesses still to come and the last word read, the model's own fields (assumptions 5 and 6), are unchanged. -/
def AccessesKept (s t : State) : Prop := t.inputs = s.inputs ∧ t.lastRead = s.lastRead

/-- The command's end: nothing in flight, `BUSY` = 0, `DONE` = 1 (R135). -/
def Completed (t : State) : Prop := t.pending = none ∧ t.busy = false ∧ t.done = true

/-- Session state after a session's end: `H`, `BUF` and `BCNT` at 0 (R56). -/
def SessionZeroised (t : State) : Prop :=
  t.sess.h = zeroWords ∧ t.sess.buf = zeroBytes ∧ t.sess.bcnt = 0

/-- Every state of R55 but `CTRL`, `DONE` and the unspecified scratch is at its reset value. -/
def AtResetValues (t : State) : Prop :=
  t.err = false ∧ t.errcode = .none ∧ t.digestValid = false ∧ t.keyValid = false ∧ t.resultValid = false ∧
  t.matched = false ∧ t.dsrc = .none ∧ t.mode = .idle ∧ t.din = 0 ∧ t.tagLen = 0 ∧ (∀ i : Fin 8, t.tag[i] = 0) ∧
  (∀ i : Fin 8, t.sess.h[i] = 0) ∧ (∀ i : Fin 64, t.sess.buf[i] = 0) ∧ t.sess.bcnt = 0 ∧ t.sess.nbytes = 0 ∧
  (∀ i : Fin 64, t.k0[i] = 0) ∧ (∀ i : Fin 8, t.d[i] = 0) ∧ t.pending = none

/-! ### Which step comes next -/

/-- The next step is the engine's turn. -/
def EngineNext (s : State) : Prop := s.inputs = [] ∨ ∃ rest, s.inputs = .engine :: rest

/-- The next step is the completion of command `i`. -/
def CompletesNext (i : Instr) (s : State) : Prop :=
  EngineNext s ∧ ∃ p, s.pending = some p ∧ decode p.cmd = .ok i

/-- The next step is a reset. -/
def ResetNext (s : State) : Prop := ∃ rest, s.inputs = .reset :: rest

/-- The next step is the host's write of `v` to register `r`, by offset or by bus address. -/
def WritesNext (r : Reg) (v : Word) (s : State) : Prop :=
  (∃ off rest, s.inputs = .write off v :: rest ∧ regAt off = r) ∨
  (∃ addr off rest, s.inputs = .writeAt addr v :: rest ∧ windowOffset addr = some off ∧ regAt off = r)

/-- The next step accepts command `i`: it is written to `CMD` and admitted. -/
def AcceptsNext (i : Instr) (s : State) : Prop :=
  ∃ v, WritesNext .cmd v s ∧ s.busy = false ∧ decode v = .ok i ∧ precheck i s = none

/-! ### What the host can tell apart -/

/-- Two states that differ at most in what the host can never read: `K0`, `H`, `BUF`, the engine scratch, and `D`
where it is not readable (R56). `BCNT` depends on `NBYTES` alone, so it is on the visible side
(DESIGN CHOICE, assumption 27). -/
structure Indistinguishable (s t : State) : Prop where
  irqEn : s.irqEn = t.irqEn
  din : s.din = t.din
  tagLen : s.tagLen = t.tagLen
  tag : s.tag = t.tag
  mode : s.mode = t.mode
  bcnt : s.sess.bcnt = t.sess.bcnt
  nbytes : s.sess.nbytes = t.sess.nbytes
  keyValid : s.keyValid = t.keyValid
  digestValid : s.digestValid = t.digestValid
  dsrc : s.dsrc = t.dsrc
  readable : digestReadable s = true → s.d = t.d
  resultValid : s.resultValid = t.resultValid
  matched : s.matched = t.matched
  done : s.done = t.done
  err : s.err = t.err
  errcode : s.errcode = t.errcode
  pending : s.pending = t.pending
  inputs : s.inputs = t.inputs
  lastRead : s.lastRead = t.lastRead
  freeSeq : s.freeSeq = t.freeSeq

/-- The two completions that put a function of hidden state where the host reads it: a HASH session's `FINISH`, and
`HMAC_OUTER` (R40, R260). -/
def ReleasesDigest (s : State) : Prop :=
  (CompletesNext .finish s ∧ s.mode = .hash) ∨ CompletesNext .hmacOuter s

end Sys2Proof.Machine
end

