-- ==== Sys2Proof/Certificates/Slice0/Obligations.lean ====
section
/-! DEFINITION. The statements for the provers. Each docstring names the rule of spec/ it rests on. -/

open Sys2Proof Sys2Proof.Machine

/-! ### Encoding -/

/-- R104, R109, and the illegal examples of R303: what the decoder makes of words written out from the map. -/
def Obligations.OpcodeWordsDecode : Prop :=
  decode 0x00000001#32 = .ok .hashStart ∧ decode 0x00000002#32 = .ok .keyStart ∧
  decode 0x00000003#32 = .ok .hmacInnerStart ∧ decode 0x00000004#32 = .ok (.push 1) ∧
  decode 0x00000014#32 = .ok (.push 2) ∧ decode 0x00000024#32 = .ok (.push 3) ∧
  decode 0x00000034#32 = .ok (.push 4) ∧ decode 0x00000005#32 = .ok .finish ∧
  decode 0x00000006#32 = .ok .keyFinish ∧ decode 0x00000007#32 = .ok .hmacOuter ∧
  decode 0x00000008#32 = .ok .verify ∧ decode 0x0000000F#32 = .ok .clear ∧
  decode 0x00000000#32 = .error .reservedOpcode ∧ decode 0x00000009#32 = .error .reservedOpcode ∧
  decode 0x00000015#32 = .error .operandBits ∧ decode 0x00000044#32 = .error .reservedBits

/-- R109: the words of the mnemonics; `PUSH 0` and `PUSH 5` and above are refused by the assembler's check, and no
word encodes them. -/
def Obligations.MnemonicsEncode : Prop :=
  (encode .hashStart = 0x00000001#32 ∧ encode .keyStart = 0x00000002#32 ∧
    encode .hmacInnerStart = 0x00000003#32 ∧ encode (.push 1) = 0x00000004#32 ∧
    encode (.push 2) = 0x00000014#32 ∧ encode (.push 3) = 0x00000024#32 ∧
    encode (.push 4) = 0x00000034#32 ∧ encode .finish = 0x00000005#32 ∧
    encode .keyFinish = 0x00000006#32 ∧ encode .hmacOuter = 0x00000007#32 ∧
    encode .verify = 0x00000008#32 ∧ encode .clear = 0x0000000F#32) ∧
  (∀ n : Nat, n = 0 ∨ 5 ≤ n → ¬ WellFormed (.push n) ∧ ∀ v : Word, decode v ≠ .ok (.push n))

/-- Decode after encode, for every well-formed command (R104, R109, R131). -/
def Obligations.DecodeOfEncode : Prop := ∀ i : Instr, WellFormed i → decode (encode i) = .ok i

/-- Each legal word has one command, and the command has that word alone: nothing of a word is dropped (R104). -/
def Obligations.EncodeOfDecode : Prop :=
  ∀ (v : Word) (i : Instr), decode v = .ok i → WellFormed i ∧ encode i = v

/-- R105, R303: exactly which words are illegal, and what a `CMD` write of one does on a core that is not busy. -/
def Obligations.IllegalWordsRefused : Prop :=
  ∀ v : Word,
    ((∃ r, decode v = .error r) ↔
      (v.extractLsb' 0 4 = 0#4 ∨ (9 ≤ (v.extractLsb' 0 4).toNat ∧ (v.extractLsb' 0 4).toNat ≤ 14) ∨
        v.extractLsb' 6 26 ≠ 0#26 ∨ (v.extractLsb' 4 2 ≠ 0#2 ∧ v.extractLsb' 0 4 ≠ 4#4))) ∧
    (∀ s : State, s.busy = false → (∃ r, decode v = .error r) →
      RefusedWith .illegalCmd s (busWrite 0x10#8 v s))

/-- R102, R109: `exec` answers an ill-formed `PUSH`, which no decoder gives, with its own refusal in every state: the
refusal is the model's choice (assumption 19). -/
def Obligations.IllFormedPushStops : Prop :=
  ∀ (n : Nat) (s : State), (n = 0 ∨ 5 ≤ n) → exec (.push n) s = .refused .noEncoding

/-! ### Steps -/

/-- A step runs the decoded command: a word that reaches `CMD` on a core with nothing in flight, and the word in
flight on the engine's turn (R130, R135). Other inputs are taken in their order of arrival (R84), and the engine's
turn passes where nothing is in flight. That the inputs and the turns are a list, and that the word
read stands in `lastRead`, is the model's choice (assumptions 5 and 6). -/
def Obligations.StepRunsDecodedCommand : Prop :=
  ∀ (s : State) (i : Instr),
    (∀ v rest, s.inputs = .write 0x10#8 v :: rest → s.busy = false → decode v = .ok i →
      step s = exec i { s with inputs := rest }) ∧
    (∀ p, s.inputs = [] → s.pending = some p → decode p.cmd = .ok i → step s = exec i s) ∧
    (∀ p rest, s.inputs = .engine :: rest → s.pending = some p → decode p.cmd = .ok i →
      step s = exec i { s with inputs := rest }) ∧
    (∀ off rest, s.inputs = .read off :: rest →
      step s = .next { s with inputs := rest, lastRead := some (readWindow off s) }) ∧
    (∀ off v rest, s.inputs = .write off v :: rest → step s = busWrite off v { s with inputs := rest }) ∧
    (∀ rest, s.inputs = .engine :: rest → s.pending = none → step s = .next { s with inputs := rest }) ∧
    (s.inputs = [] → s.pending = none → step s = .next s)

/-- R130, R132, R133: a `CMD` write does what `CommandWrite(v)` does, test by test; and a command that `Check` refuses
changes `ERR` and `ERRCODE` alone, so it neither completes nor sets `DONE`, and a command in flight is not
disturbed. -/
def Obligations.CommandWriteFollowsRule : Prop :=
  ∀ (v : Word) (s : State),
    busWrite 0x10#8 v s = .next (commandWriteRule v s) ∧
    (∀ e, checkRule v s = some e → RefusedWith e s (busWrite 0x10#8 v s)) ∧
    (checkRule v s = none → ∃ i, decode v = .ok i ∧ Accepted i s (busWrite 0x10#8 v s))

/-- R134: acceptance latches the word and `DIN`, sets `BUSY`, clears three flags, and changes nothing else; a host
read in the next step sees `BUSY` = 1. -/
def Obligations.AcceptanceChangesOnly : Prop :=
  ∀ (i : Instr) (s : State), WellFormed i → s.busy = false → precheck i s = none →
    Accepted i s (exec i s) ∧
    ∀ t, exec i s = .next t → t.busy = true ∧ (readWindow 0x0C#8 t).getLsbD 0 = true

/-- R137, R305: for every command, the state in which it is refused with STATE, and the state in which it is
accepted, row by row. -/
def Obligations.StatePreconditions : Prop :=
  ∀ s : State, s.busy = false →
    (if s.mode = .idle then Accepted .hashStart s (exec .hashStart s) ∧ Accepted .keyStart s (exec .keyStart s)
      else RefusedWith .state s (exec .hashStart s) ∧ RefusedWith .state s (exec .keyStart s)) ∧
    (if s.mode = .idle ∧ s.keyValid = true then Accepted .hmacInnerStart s (exec .hmacInnerStart s)
      else RefusedWith .state s (exec .hmacInnerStart s)) ∧
    (∀ n, 1 ≤ n → n ≤ 4 → s.mode = .idle → RefusedWith .state s (exec (.push n) s)) ∧
    (if s.mode = .hash ∨ s.mode = .inner then Accepted .finish s (exec .finish s)
      else RefusedWith .state s (exec .finish s)) ∧
    (if s.mode = .key then Accepted .keyFinish s (exec .keyFinish s)
      else RefusedWith .state s (exec .keyFinish s)) ∧
    (if s.mode = .idle ∧ s.keyValid = true ∧ s.digestValid = true ∧ s.dsrc = .inner
      then Accepted .hmacOuter s (exec .hmacOuter s) else RefusedWith .state s (exec .hmacOuter s)) ∧
    (if s.mode = .idle ∧ s.digestValid = true ∧ (s.dsrc = .hash ∨ s.dsrc = .tag)
      then Accepted .verify s (exec .verify s) else RefusedWith .state s (exec .verify s)) ∧
    Accepted .clear s (exec .clear s)

/-- R306: a `PUSH` in an open session is refused with LENGTH exactly where it would take `NBYTES` past 2^61 - 1;
the session stays open with its old `NBYTES`. -/
def Obligations.PushLengthLimit : Prop :=
  ∀ (n : Nat) (s : State), 1 ≤ n → n ≤ 4 → s.busy = false → s.mode ≠ .idle →
    if s.sess.nbytes.toNat + n > 2 ^ 61 - 1 then RefusedWith .length s (exec (.push n) s)
    else Accepted (.push n) s (exec (.push n) s)

/-- R75, R304: while `BUSY` = 1, writes to `CMD`, `TAG_LEN` and `TAG[i]` are refused with BUSY, and writes to
`DIN`, `CTRL` and `STATUS` are accepted. -/
def Obligations.WritesWhileBusy : Prop :=
  ∀ (v : Word) (s : State), s.busy = true →
    RefusedWith .busy s (busWrite 0x10#8 v s) ∧
    RefusedWith .busy s (busWrite 0x20#8 v s) ∧
    (∀ i : Fin 8, RefusedWith .busy s (busWrite (BitVec.ofNat 8 (0x60 + 4 * i.val)) v s)) ∧
    busWrite 0x14#8 v s = .next { s with din := v } ∧
    busWrite 0x08#8 v s = .next { s with irqEn := v.getLsbD 0 } ∧
    busWrite 0x0C#8 v s = .next (writeStatus v s)

/-- R26, R37, R39, R41: what a write to a host register stores, with no other effect, and that it reads back. `DIN` and
`CTRL` can be written at any time, and of `CTRL` bit 0 alone is kept; `TAG_LEN` and `TAG[i]` with `BUSY` = 0. -/
def Obligations.HostRegisterWrites : Prop :=
  ∀ (v : Word) (s : State),
    (∃ t, busWrite 0x14#8 v s = .next t ∧ t = { s with din := v } ∧ readWindow 0x14#8 t = v) ∧
    (∃ t, busWrite 0x08#8 v s = .next t ∧ t = { s with irqEn := v.getLsbD 0 } ∧
      readWindow 0x08#8 t = v &&& 1#32) ∧
    (s.busy = false → ∃ t, busWrite 0x20#8 v s = .next t ∧ t = { s with tagLen := v } ∧
      readWindow 0x20#8 t = v) ∧
    (s.busy = false → ∀ i : Fin 8, ∃ t, busWrite (BitVec.ofNat 8 (0x60 + 4 * i.val)) v s = .next t ∧
      t = { s with tag := t.tag } ∧ readWindow (BitVec.ofNat 8 (0x60 + 4 * i.val)) t = v ∧
      ∀ j : Fin 8, j ≠ i → t.tag[j] = s.tag[j])

/-- R301: the first error since the last clear is kept, and nothing else is saved or changed. -/
def Obligations.FirstErrorKept : Prop :=
  ∀ (c : ErrCode) (s : State),
    (raiseError c s).err = true ∧
    (s.err = false → (raiseError c s).errcode = c) ∧
    (s.err = true → (raiseError c s).errcode = s.errcode) ∧
    raiseError c s = { s with err := true, errcode := (raiseError c s).errcode }

/-- R74: a write to `STATUS`, at any time, clears `DONE` where bit 1 is 1, `ERR` and `ERRCODE` where bit 2 is 1, and
does nothing else. -/
def Obligations.StatusWriteClears : Prop :=
  ∀ (v : Word) (s : State),
    busWrite 0x0C#8 v s = .next { s with
      done := if v.getLsbD 1 = true then false else s.done
      err := if v.getLsbD 2 = true then false else s.err
      errcode := if v.getLsbD 2 = true then .none else s.errcode }

/-- R42, R76: writes to read-only registers and to reserved offsets are ignored, and a reserved offset reads 0. -/
def Obligations.ReadOnlyAndReservedIgnored : Prop :=
  ∀ (off : BitVec 8) (v : Word) (s : State),
    let o := (off &&& 0xFC#8).toNat
    ((o = 0x00 ∨ o = 0x04 ∨ o = 0x18 ∨ o = 0x1C ∨ (0x40 ≤ o ∧ o ≤ 0x5C)) → busWrite off v s = .next s) ∧
    (((0x24 ≤ o ∧ o ≤ 0x3C) ∨ 0x80 ≤ o) → busWrite off v s = .next s ∧ readWindow off s = 0)

/-- R72: the word a read of each offset returns, with bits [1:0] of the offset ignored; the read has no side effect on
any register, so that every offset reads after it as before. -/
def Obligations.WindowReadMap : Prop :=
  ∀ (off : BitVec 8) (s : State),
    let o := (off &&& 0xFC#8).toNat
    (o = 0x00 → readWindow off s = 0x53323536#32) ∧
    (o = 0x04 → readWindow off s = 0x00000001#32) ∧
    (o = 0x08 → readWindow off s = if s.irqEn = true then 1#32 else 0#32) ∧
    (o = 0x0C → readWindow off s = statusWord s) ∧
    (o = 0x10 → readWindow off s = 0) ∧
    (o = 0x14 → readWindow off s = s.din) ∧
    (o = 0x18 → readWindow off s = s.sess.nbytes.extractLsb' 0 32) ∧
    (o = 0x1C → readWindow off s = (s.sess.nbytes.extractLsb' 32 29).setWidth 32) ∧
    (o = 0x20 → readWindow off s = s.tagLen) ∧
    (∀ i : Fin 8, o = 0x40 + 4 * i.val → readWindow off s =
      if s.digestValid = true ∧ (s.dsrc = .hash ∨ s.dsrc = .tag) then s.d[i] else 0) ∧
    (∀ i : Fin 8, o = 0x60 + 4 * i.val → readWindow off s = s.tag[i]) ∧
    (((0x24 ≤ o ∧ o ≤ 0x3C) ∨ 0x80 ≤ o) → readWindow off s = 0) ∧
    (∃ t, busRead off s = .next t ∧ ∀ off', readWindow off' t = readWindow off' s)

/-- R27, R34, R35, R302: every bit of the word `STATUS` reads, the reserved ones among them. -/
def Obligations.StatusWordLayout : Prop :=
  ∀ s : State,
    (statusWord s).getLsbD 0 = s.busy ∧ (statusWord s).getLsbD 1 = s.done ∧ (statusWord s).getLsbD 2 = s.err ∧
    (statusWord s).getLsbD 3 = s.digestValid ∧ (statusWord s).getLsbD 4 = s.keyValid ∧
    (statusWord s).getLsbD 5 = s.resultValid ∧ (statusWord s).getLsbD 6 = s.matched ∧
    (statusWord s).getLsbD 7 = false ∧
    (statusWord s).extractLsb' 8 4 = (match s.errcode with
      | .none => 0#4 | .illegalCmd => 1#4 | .busy => 2#4 | .state => 3#4 | .length => 4#4 | .padInvariant => 5#4) ∧
    (statusWord s).extractLsb' 12 2 = (match s.dsrc with
      | .none => 0#2 | .hash => 1#2 | .inner => 2#2 | .tag => 3#2) ∧
    (statusWord s).extractLsb' 14 2 = 0#2 ∧
    (statusWord s).extractLsb' 16 3 = (match s.mode with
      | .idle => 0#3 | .hash => 1#3 | .key => 2#3 | .inner => 3#3) ∧
    (statusWord s).extractLsb' 19 13 = 0#13

/-- R38: `LEN_LO` and `LEN_HI` are the two parts of the 61-bit `NBYTES`, and bits [31:29] of `LEN_HI` are 0. -/
def Obligations.LengthViews : Prop :=
  ∀ s : State,
    readWindow 0x18#8 s = s.sess.nbytes.extractLsb' 0 32 ∧
    (readWindow 0x1C#8 s).extractLsb' 29 3 = 0#3 ∧
    (readWindow 0x1C#8 s).toNat * 2 ^ 32 + (readWindow 0x18#8 s).toNat = s.sess.nbytes.toNat

/-- R40: `DIGEST[i]` shows `D[i]` for a HASH digest and for a tag, and 0 otherwise; the eight words are the 32 bytes of
the digest, word `i`'s top byte being byte `4i`. -/
def Obligations.DigestReadGate : Prop :=
  ∀ s : State,
    (∀ i : Fin 8, readWindow (BitVec.ofNat 8 (0x40 + 4 * i.val)) s =
      if s.digestValid = true ∧ (s.dsrc = .hash ∨ s.dsrc = .tag) then s.d[i] else 0) ∧
    (s.digestValid = true → (s.dsrc = .hash ∨ s.dsrc = .tag) →
      readDigest s = ser s.d ∧ (readDigest s).length = 32 ∧
      ∀ i : Fin 8, (readDigest s)[4 * i.val]? =
        some ((readWindow (BitVec.ofNat 8 (0x40 + 4 * i.val)) s).extractLsb' 24 8))

/-- R53, R309: `irq` is the level `CTRL.IRQ_EN and (DONE or ERR)`; enabling it while `DONE` or `ERR` is 1 raises it
at once, and clearing both drops it. -/
def Obligations.IrqLevel : Prop :=
  ∀ s : State,
    s.irq = ((readWindow 0x08#8 s).getLsbD 0 &&
      ((readWindow 0x0C#8 s).getLsbD 1 || (readWindow 0x0C#8 s).getLsbD 2)) ∧
    (∀ t, busWrite 0x08#8 1#32 s = .next t → (s.done = true ∨ s.err = true) → t.irq = true) ∧
    (∀ t, busWrite 0x0C#8 6#32 s = .next t → t.irq = false)

/-- R70, R71: which addresses of the host's bus reach the core, and at which offset. -/
def Obligations.WindowDecode : Prop :=
  Config.base % 256 = 0 ∧
  ∀ (addr : Nat) (v : Word) (s : State),
    (Config.base ≤ addr → addr < Config.base + 256 →
      takeEvent (.readAt addr) s = busRead (BitVec.ofNat 8 (addr - Config.base) &&& 0xFC#8) s ∧
      takeEvent (.writeAt addr v) s = busWrite (BitVec.ofNat 8 (addr - Config.base) &&& 0xFC#8) v s) ∧
    ((addr < Config.base ∨ Config.base + 256 ≤ addr) →
      takeEvent (.readAt addr) s = .next s ∧ takeEvent (.writeAt addr v) s = .next s)

/-! ### Reset -/

/-- R330, R332: a reset step, from any state, also one with a command in flight: every state of R55 at its reset value,
nothing in flight, `STATUS` reading 0, `irq` = 0. The accesses still to come are the host's and stay (assumption 5). -/
def Obligations.ResetRestores : Prop :=
  ∀ (s : State) (rest : List Event), s.inputs = .reset :: rest →
    ∃ t, step s = .next t ∧ AtResetValues t ∧ t.done = false ∧ t.irqEn = false ∧
      readWindow 0x0C#8 t = 0 ∧ t.irq = false ∧ t.inputs = rest

/-- R55, R332: the state after reset, through the registers a host reads; the core then runs nothing of itself. -/
def Obligations.ResetStateReads : Prop :=
  AtResetValues State.reset ∧ State.reset.done = false ∧ State.reset.irqEn = false ∧
  readWindow 0x0C#8 State.reset = 0 ∧ readWindow 0x08#8 State.reset = 0 ∧ readWindow 0x18#8 State.reset = 0 ∧
  readWindow 0x1C#8 State.reset = 0 ∧ readWindow 0x00#8 State.reset = 0x53323536#32 ∧
  readWindow 0x04#8 State.reset = 1#32 ∧ State.reset.irq = false ∧ step State.reset = .next State.reset

/-- R335: `CLEAR`'s completion and a reset agree on all state but `CTRL` and `DONE` (and the unspecified
scratch), and `CLEAR` is refused while a command is in flight, which a reset drops. -/
def Obligations.ClearAgainstReset : Prop :=
  ∀ (s : State) (p : Pending), s.pending = some p →
    ∃ t u, exec .clear s = .next t ∧ takeEvent .reset s = .next u ∧
      { t with irqEn := u.irqEn, done := u.done, scratch := u.scratch } = u ∧
      t.irqEn = s.irqEn ∧ u.irqEn = false ∧ t.done = true ∧ u.done = false ∧ u.busy = false ∧
      RefusedWith .busy s (busWrite 0x10#8 (encode .clear) s)

/-! ### The commands' own effects (their completions) -/

/-- R223: `HASH_START` completes from every state it is in flight in: a HASH session that has absorbed nothing is open,
no digest is held, and the key is kept. -/
def Obligations.HashStartOpensSession : Prop :=
  ∀ (s : State) (p : Pending), s.pending = some p →
    ∃ t, exec .hashStart s = .next t ∧ Completed t ∧ t.mode = .hash ∧ Represents t.sess [] ∧
      t.sess.h = iv ∧ (∀ i : Fin 8, t.d[i] = 0) ∧ t.digestValid = false ∧ t.dsrc = .none ∧
      KeyKept s t ∧ HostRegsKept s t ∧ ErrorKept s t ∧ VerdictKept s t ∧ AccessesKept s t

/-- R253: `KEY_START` completes: a KEY session is open, the old key and any digest are gone. -/
def Obligations.KeyStartOpensSession : Prop :=
  ∀ (s : State) (p : Pending), s.pending = some p →
    ∃ t, exec .keyStart s = .next t ∧ Completed t ∧ t.mode = .key ∧ Represents t.sess [] ∧ t.sess.h = iv ∧
      (∀ i : Fin 64, t.k0[i] = 0) ∧ t.keyValid = false ∧ (∀ i : Fin 8, t.d[i] = 0) ∧
      t.digestValid = false ∧ t.dsrc = .none ∧
      HostRegsKept s t ∧ ErrorKept s t ∧ VerdictKept s t ∧ AccessesKept s t

/-- R256: `HMAC_INNER_START` completes: an INNER session is open and holds exactly the 64 bytes
`K0 xor rep(0x36, 64)`, not yet compressed; the key is kept. -/
def Obligations.InnerStartOpensSession : Prop :=
  ∀ (s : State) (p : Pending), s.pending = some p →
    ∃ t, exec .hmacInnerStart s = .next t ∧ Completed t ∧ t.mode = .inner ∧
      Represents t.sess (xorRep s.k0 0x36#8).toList ∧ t.sess.bcnt = 64 ∧ t.sess.h = iv ∧
      t.sess.nbytes = 64 ∧ (∀ i : Fin 64, t.sess.buf[i] = s.k0[i] ^^^ 0x36#8) ∧
      (∀ i : Fin 8, t.d[i] = 0) ∧ t.digestValid = false ∧ t.dsrc = .none ∧
      KeyKept s t ∧ HostRegsKept s t ∧ ErrorKept s t ∧ VerdictKept s t ∧ AccessesKept s t

/-- R224: `PUSH n` completes: the session absorbs the first `n` bytes of the latched `DIN`, whatever was absorbed
before and whichever session is open, and nothing else changes. -/
def Obligations.PushAbsorbs : Prop :=
  ∀ (n : Nat) (s : State) (p : Pending), 1 ≤ n → n ≤ 4 → s.pending = some p →
    ∃ t, exec (.push n) s = .next t ∧ Completed t ∧ t.mode = s.mode ∧
      (∀ str, Represents s.sess str → str.length + n ≤ 2 ^ 61 - 1 →
        Represents t.sess (str ++ [p.din.extractLsb' 24 8, p.din.extractLsb' 16 8, p.din.extractLsb' 8 8,
          p.din.extractLsb' 0 8].take n)) ∧
      t.sess.nbytes = s.sess.nbytes + BitVec.ofNat 61 n ∧
      KeyKept s t ∧ ResultKept s t ∧ HostRegsKept s t ∧ ErrorKept s t ∧ VerdictKept s t ∧ AccessesKept s t

/-- R225, R227: `FINISH` completes: the digest of exactly what the session absorbed stands in `D`, marked as a hash or as
an inner digest by the session it closes; the session is closed and zeroised, its length kept. -/
def Obligations.FinishGivesDigest : Prop :=
  ∀ (s : State) (p : Pending), s.pending = some p →
    ∃ t, exec .finish s = .next t ∧ Completed t ∧ t.mode = .idle ∧ t.digestValid = true ∧
      (s.mode = .hash → t.dsrc = .hash) ∧ (s.mode = .inner → t.dsrc = .inner) ∧
      (∀ str, Represents s.sess str → ser t.d = digest str) ∧
      SessionZeroised t ∧ t.sess.nbytes = s.sess.nbytes ∧
      KeyKept s t ∧ HostRegsKept s t ∧ ErrorKept s t ∧ VerdictKept s t ∧ AccessesKept s t

/-- R255: `KEY_FINISH` completes: `K0` is the absorbed key normalised, a key of at most 64 bytes unhashed; the key's
digest never stands in `D`. -/
def Obligations.KeyFinishNormalises : Prop :=
  ∀ (s : State) (p : Pending), s.pending = some p →
    ∃ t, exec .keyFinish s = .next t ∧ Completed t ∧ t.mode = .idle ∧ t.keyValid = true ∧
      (∀ key, Represents s.sess key → t.k0 = normKey key) ∧
      SessionZeroised t ∧ t.sess.nbytes = s.sess.nbytes ∧
      ResultKept s t ∧ HostRegsKept s t ∧ ErrorKept s t ∧ VerdictKept s t ∧ AccessesKept s t

/-- R257: `HMAC_OUTER` completes: `D` is the digest of the outer key and the 32 bytes of the inner digest, the key is
gone, and `NBYTES` is 96. -/
def Obligations.OuterConsumesKey : Prop :=
  ∀ (s : State) (p : Pending), s.pending = some p →
    ∃ t, exec .hmacOuter s = .next t ∧ Completed t ∧ t.mode = s.mode ∧ t.digestValid = true ∧ t.dsrc = .tag ∧
      ser t.d = digest ((xorRep s.k0 0x5c#8).toList ++ ser s.d) ∧
      (∀ i : Fin 64, t.k0[i] = 0) ∧ t.keyValid = false ∧ SessionZeroised t ∧ t.sess.nbytes = 96 ∧
      HostRegsKept s t ∧ ErrorKept s t ∧ VerdictKept s t ∧ AccessesKept s t

/-- R281, R282: `VERIFY` completes: the verdict is 1 exactly where `TAG_LEN` is 32 and every word of `D` is that word
of `TAG`; a mismatch and a wrong length raise no error, and nothing else changes. -/
def Obligations.VerifySetsVerdict : Prop :=
  ∀ (s : State) (p : Pending), s.pending = some p →
    ∃ t, exec .verify s = .next t ∧ Completed t ∧ t.resultValid = true ∧
      (t.matched = true ↔ (s.tagLen = 32#32 ∧ ∀ i : Fin 8, s.d[i] = s.tag[i])) ∧
      t.matched = verifyTag (ser s.d) (if s.tagLen = 32#32 then ser s.tag else []) ∧
      ResultKept s t ∧ SessionKept s t ∧ KeyKept s t ∧ HostRegsKept s t ∧ ErrorKept s t ∧ AccessesKept s t

/-- R139: `CLEAR` completes: every state of R55 but `CTRL` at its reset value, and `DONE` = 1, so that `STATUS` reads
0x00000002. -/
def Obligations.ClearReturnsToReset : Prop :=
  ∀ (s : State) (p : Pending), s.pending = some p →
    ∃ t, exec .clear s = .next t ∧ Completed t ∧ AtResetValues t ∧ t.irqEn = s.irqEn ∧
      readWindow 0x0C#8 t = 0x00000002#32 ∧ AccessesKept s t

/-! ### The protocol over runs -/

/-- R138: an accepted command completes. Written to `CMD` and admitted, it is in flight for any number of reads of
`STATUS`, all of which see `BUSY` = 1, and on the engine's turn it ends, with no error of its own. The turns are the model's (assumption 5). -/
def Obligations.AcceptedCommandCompletes : Prop :=
  ∀ (i : Instr) (s : State) (polls : Nat) (rest : List Event), WellFormed i → s.busy = false → precheck i s = none →
    s.inputs = .write 0x10#8 (encode i) :: (List.replicate polls (Event.read 0x0C#8) ++ Event.engine :: rest) →
    ∃ u t, Host.Core.run core (1 + polls) s = .next u ∧ u.busy = true ∧
      (polls > 0 → ∃ w, u.lastRead = some w ∧ w.getLsbD 0 = true) ∧
      step u = .next t ∧ Completed t ∧ t.inputs = rest ∧ (i ≠ .clear → ErrorKept s t)

/-- R136, R341: apart from `CLEAR`, what a command's completion does not depend on: `CTRL`, `DIN`, `ERR` and `ERRCODE`
as they stand at completion. Values the host wrote there while the command was in flight survive it. -/
def Obligations.HostWritesSurviveCompletion : Prop :=
  ∀ (i : Instr) (s t : State) (p : Pending) (irqEn err : Bool) (din : Word) (errcode : ErrCode),
    i ≠ .clear → s.pending = some p → exec i s = .next t →
    exec i { s with irqEn := irqEn, din := din, err := err, errcode := errcode } =
      .next { t with irqEn := irqEn, din := din, err := err, errcode := errcode }

/-- R344: a `DIN` write accepted while `CLEAR` is in flight is overwritten with 0 at `CLEAR`'s completion. -/
def Obligations.DinWriteDuringClearIsLost : Prop :=
  ∀ (s : State) (p : Pending) (v : Word) (rest : List Event),
    s.pending = some p → p.cmd = encode .clear → s.inputs = .write 0x14#8 v :: .engine :: rest →
    ∃ u t, step s = .next u ∧ u.din = v ∧ u.busy = true ∧ step u = .next t ∧ t.din = 0 ∧ t.busy = false

/-- R54 and the flag rules R28 to R34: which step can change which flag. The one clause about a fall of `MATCH` needs the
invariant, by which no verdict stands while a `VERIFY` is in flight. -/
def Obligations.FlagWriters : Prop :=
  ∀ s t : State, step s = .next t →
    (s.busy = false → t.busy = true → ∃ i, AcceptsNext i s) ∧
    (s.busy = true → t.busy = false → (∃ i, CompletesNext i s) ∨ ResetNext s) ∧
    (s.done = false → t.done = true → ∃ i, CompletesNext i s) ∧
    (s.done = true → t.done = false →
      (∃ i, AcceptsNext i s) ∨ (∃ v, WritesNext .status v s ∧ v.getLsbD 1 = true) ∨ ResetNext s) ∧
    (s.err = false → t.err = true →
      ∃ v, WritesNext .cmd v s ∨ WritesNext .tagLen v s ∨ ∃ i, WritesNext (.tag i) v s) ∧
    (s.err = true → t.err = false →
      (∃ v, WritesNext .status v s ∧ v.getLsbD 2 = true) ∨ CompletesNext .clear s ∨ ResetNext s) ∧
    (s.digestValid = false → t.digestValid = true → CompletesNext .finish s ∨ CompletesNext .hmacOuter s) ∧
    (s.digestValid = true → t.digestValid = false →
      CompletesNext .hashStart s ∨ CompletesNext .keyStart s ∨ CompletesNext .hmacInnerStart s ∨
        CompletesNext .clear s ∨ ResetNext s) ∧
    (s.keyValid = false → t.keyValid = true → CompletesNext .keyFinish s) ∧
    (s.keyValid = true → t.keyValid = false →
      CompletesNext .keyStart s ∨ CompletesNext .hmacOuter s ∨ CompletesNext .clear s ∨ ResetNext s) ∧
    (s.resultValid = false → t.resultValid = true → CompletesNext .verify s) ∧
    (s.resultValid = true → t.resultValid = false →
      (∃ i, AcceptsNext i s) ∨ CompletesNext .clear s ∨ ResetNext s) ∧
    (s.matched = false → t.matched = true → CompletesNext .verify s) ∧
    (Inv s → s.matched = true → t.matched = false →
      (∃ i, AcceptsNext i s) ∨ CompletesNext .clear s ∨ ResetNext s) ∧
    (t.errcode ≠ s.errcode →
      (∃ v, WritesNext .cmd v s ∨ WritesNext .tagLen v s ∨ ∃ i, WritesNext (.tag i) v s) ∨
        (∃ v, WritesNext .status v s ∧ v.getLsbD 2 = true) ∨ CompletesNext .clear s ∨ ResetNext s) ∧
    (t.dsrc ≠ s.dsrc → CompletesNext .hashStart s ∨ CompletesNext .keyStart s ∨ CompletesNext .hmacInnerStart s ∨
      CompletesNext .finish s ∨ CompletesNext .hmacOuter s ∨ CompletesNext .clear s ∨ ResetNext s)

/-- R26, R37, R39, R41, R57, R258: which step can change a register the host writes, the key, the digest and the
byte counter. A plain HASH session, among others, leaves the key alone. -/
def Obligations.StoreWriters : Prop :=
  ∀ s t : State, step s = .next t →
    (t.irqEn ≠ s.irqEn → (∃ v, WritesNext .ctrl v s) ∨ ResetNext s) ∧
    (t.din ≠ s.din → (∃ v, WritesNext .din v s) ∨ CompletesNext .clear s ∨ ResetNext s) ∧
    (t.tagLen ≠ s.tagLen → (∃ v, WritesNext .tagLen v s ∧ s.busy = false) ∨ CompletesNext .clear s ∨ ResetNext s) ∧
    (t.tag ≠ s.tag →
      (∃ i v, WritesNext (.tag i) v s ∧ s.busy = false) ∨ CompletesNext .clear s ∨ ResetNext s) ∧
    (t.k0 ≠ s.k0 → CompletesNext .keyStart s ∨ CompletesNext .keyFinish s ∨ CompletesNext .hmacOuter s ∨
      CompletesNext .clear s ∨ ResetNext s) ∧
    (t.d ≠ s.d → CompletesNext .hashStart s ∨ CompletesNext .keyStart s ∨ CompletesNext .hmacInnerStart s ∨
      CompletesNext .finish s ∨ CompletesNext .hmacOuter s ∨ CompletesNext .clear s ∨ ResetNext s) ∧
    (t.mode ≠ s.mode → CompletesNext .hashStart s ∨ CompletesNext .keyStart s ∨ CompletesNext .hmacInnerStart s ∨
      CompletesNext .finish s ∨ CompletesNext .keyFinish s ∨ CompletesNext .clear s ∨ ResetNext s) ∧
    (t.sess.nbytes ≠ s.sess.nbytes → CompletesNext .hashStart s ∨ CompletesNext .keyStart s ∨
      CompletesNext .hmacInnerStart s ∨ (∃ n, CompletesNext (.push n) s) ∨ CompletesNext .hmacOuter s ∨
      CompletesNext .clear s ∨ ResetNext s)

/-! ### Invariants -/

/-- R138, R300: from a state that meets the invariant no step stops: the core never traps. -/
def Obligations.StepNeverStops : Prop := ∀ s : State, Inv s → ∃ t, step s = .next t

/-- The invariants hold of the state after reset (R55). -/
def Obligations.ResetMeetsInvariants : Prop := Inv State.reset ∧ Faithful State.reset

/-- Every step keeps the invariant, whatever the host does and whenever the engine completes or a reset falls
(R30, R33, R34, R43 to R49, R56, R133, R136, R221). -/
def Obligations.StepKeepsInv : Prop := ∀ s t : State, Inv s → step s = .next t → Inv t

/-- Every step keeps what the state holds equal to what the algorithm defines: the open session is the session of some
absorbed string, the key is some key normalised, and the digest is the digest, the inner digest or the tag that
`DSRC` names (R47, R48, R221, R227, R255, R259). -/
def Obligations.StepKeepsFaithful : Prop :=
  ∀ s t : State, Inv s → Faithful s → step s = .next t → Faithful t

/-! ### The algorithm -/

/-- R161: the unsigned formula gives the smallest `k`, with its two named boundaries, also in 9-bit arithmetic. -/
def Obligations.PadZeroBitsSmallest : Prop :=
  ∀ l : Nat,
    (l + 1 + padZeroBits l) % 512 = 448 ∧ padZeroBits l < 512 ∧
    (∀ k, (l + 1 + k) % 512 = 448 → padZeroBits l ≤ k) ∧
    (padZeroBits l = 0 ↔ l % 512 = 447) ∧ (padZeroBits l = 511 ↔ l % 512 = 448) ∧
    padZeroBits l = (447#9 - BitVec.ofNat 9 l).toNat

/-- R162: the byte form of the bit-level padding. -/
def Obligations.PadByteForm : Prop :=
  ∀ str : List Byte, str.length ≤ 2 ^ 61 - 1 →
    padZeroBytes str.length ≤ 63 ∧
    padZeroBits (8 * str.length) = 8 * padZeroBytes str.length + 7 ∧
    pad str = str ++ [0x80#8] ++ zeros (padZeroBytes str.length) ++ be64bytes (BitVec.ofNat 64 (8 * str.length)) ∧
    (pad str).length = str.length + 9 + padZeroBytes str.length ∧
    (pad str).length = 64 * ((str.length + 8) / 64 + 1)

/-- R163, R165: the blocks of a padded string, and its last 64 bits, which are the original bit length. -/
def Obligations.PadBlocksAndLengthField : Prop :=
  ∀ str : List Byte, str.length ≤ 2 ^ 61 - 1 →
    (parse (pad str)).length = (str.length + 8) / 64 + 1 ∧
    (parse (pad str)).length = (str.length + 9 + 63) / 64 ∧
    (str.length % 64 ≤ 55 → (parse (pad str)).length = str.length / 64 + 1) ∧
    (56 ≤ str.length % 64 → (parse (pad str)).length = str.length / 64 + 2) ∧
    (pad str).drop ((pad str).length - 8) = be64bytes (BitVec.ofNat 64 (8 * str.length))

/-- R182: `Parse` is `ParseBlock` on each 64-byte chunk, in order. -/
def Obligations.ParseIsParseBlocks : Prop :=
  ∀ (p : List Byte) (n : Nat), p.length = 64 * n →
    (parse p).length = n ∧
    ∀ b, b < n → (parse p)[b]? = some (parseBlock (toBytes64 ((p.drop (64 * b)).take 64)))

/-- R183: four bytes pushed from `DIN` at a word boundary of the buffer form one block word, the `DIN` word
unchanged: where `BCNT` is `4j`, or where it is 64 and `j` is 0. -/
def Obligations.PushedWordIsBlockWord : Prop :=
  ∀ (x : Session) (din : Word) (j : Fin 16), (x.bcnt = 4 * j.val ∨ (x.bcnt = 64 ∧ j = 0)) →
    (parseBlock (x.absorbAll (pushBytes 4 din)).buf)[j] = din

/-- R195: the message schedule has 64 words, the block's 16 and 48 by the recurrence. -/
def Obligations.ScheduleRecurrence : Prop :=
  ∀ m : Block,
    (schedule m).length = 64 ∧
    (∀ t : Fin 16, (schedule m)[t.val]? = some m[t]) ∧
    (∀ t, 16 ≤ t → t ≤ 63 → (schedule m)[t]? = some
      (smallSigma1 ((schedule m).getD (t - 2) 0) + (schedule m).getD (t - 7) 0 +
        smallSigma0 ((schedule m).getD (t - 15) 0) + (schedule m).getD (t - 16) 0))

/-- R193, R194: the two ROMs hold the first 32 bits of the fractional parts of the cube roots of the first 64 primes,
and of the square roots of the first 8: with some whole part `q`, each entry is the floor of the scaled root. -/
def Obligations.ConstantRomsAreRoots : Prop :=
  let primes : List Nat :=
    [2, 3, 5, 7, 11, 13, 17, 19, 23, 29, 31, 37, 41, 43, 47, 53] ++
    [59, 61, 67, 71, 73, 79, 83, 89, 97, 101, 103, 107, 109, 113, 127, 131] ++
    [137, 139, 149, 151, 157, 163, 167, 173, 179, 181, 191, 193, 197, 199, 211, 223] ++
    [227, 229, 233, 239, 241, 251, 257, 263, 269, 271, 277, 281, 283, 293, 307, 311]
  kc.length = 64 ∧
  (∀ t : Fin 64, ∃ q : Fin 8,
    (2 ^ 32 * q.val + (kc.getD t.val 0).toNat) ^ 3 ≤ primes.getD t.val 0 * 2 ^ 96 ∧
    primes.getD t.val 0 * 2 ^ 96 < (2 ^ 32 * q.val + (kc.getD t.val 0).toNat + 1) ^ 3) ∧
  (∀ i : Fin 8, ∃ q : Fin 8,
    (2 ^ 32 * q.val + iv[i].toNat) ^ 2 ≤ primes.getD i.val 0 * 2 ^ 64 ∧
    primes.getD i.val 0 * 2 ^ 64 < (2 ^ 32 * q.val + iv[i].toNat + 1) ^ 2)

/-- R171, R228: how many compressions `PUSH` and the padder perform, and a whole session of `L` bytes in all. -/
def Obligations.CompressionCounts : Prop :=
  (∀ (n : Nat) (din : Word) (x : Session), 1 ≤ n → n ≤ 4 → x.bcnt ≤ 64 →
    absorbCompressions (pushBytes n din) x = if x.bcnt + n > 64 then 1 else 0) ∧
  (∀ x : Session, x.bcnt ≤ 64 → finaliseCompressions x = if x.bcnt ≤ 55 then 1 else 2) ∧
  (∀ str : List Byte, str.length ≤ 2 ^ 61 - 1 →
    absorbCompressions str Session.start + finaliseCompressions (Session.start.absorbAll str) =
      (str.length + 9 + 63) / 64)

/-- R283, R345: every latency is at least 1 and depends on lengths alone; that of `VERIFY` on nothing at all. -/
def Obligations.LatencyIgnoresData : Prop :=
  ∀ (i : Instr) (s t : State),
    1 ≤ latency i s ∧
    (s.sess.bcnt = t.sess.bcnt → s.sess.nbytes = t.sess.nbytes → latency i s = latency i t) ∧
    latency .verify s = latency .verify t ∧
    (i ≠ .verify → latency i s = Config.latCmd + compressionCount i s * Config.latBlock)

/-- R280: the loop that ORs every byte difference is true exactly on equal strings. -/
def Obligations.CtEqExactlyEqual : Prop :=
  ∀ a b : List Byte, a.length = 32 → b.length = 32 → (ctEq a b = true ↔ a = b)

/-- R250: the normalised key, which is always 64 bytes. -/
def Obligations.NormKeyCases : Prop :=
  ∀ k : List Byte,
    (normKey k).toList.length = 64 ∧
    (k.length ≤ 64 → (normKey k).toList = k ++ zeros (64 - k.length)) ∧
    (64 < k.length → (normKey k).toList = digest k ++ zeros 32) ∧
    (k.length = 64 → (normKey k).toList = k) ∧
    normKey [] = zeroBytes

/-! ### Runs of the three operations -/

/-- R115, R118, R227: `HASH <data>` on an idle core, with any number of polls at each wait, ends with `Digest(data)`
readable and with no error raised. -/
def Obligations.HashSequenceGivesDigest : Prop :=
  ∀ (data : List Byte) (es : List Event) (s : State), data.length ≤ 2 ^ 61 - 1 →
    s.busy = false → s.mode = .idle → IsHash data es → s.inputs = es →
    ∃ t, Host.Core.run core es.length s = .next t ∧ t.inputs = [] ∧ t.busy = false ∧ t.mode = .idle ∧
      t.digestValid = true ∧ t.dsrc = .hash ∧ readDigest t = digest data ∧ ErrorKept s t ∧ KeyKept s t

/-- R116, R118, R259: `HMAC <key>, <m>` on an idle core ends with `Hmac(key, m)` readable, the key gone and no error
raised. -/
def Obligations.HmacSequenceGivesTag : Prop :=
  ∀ (k m : List Byte) (es : List Event) (s : State), k.length ≤ 2 ^ 61 - 1 → m.length ≤ 2 ^ 61 - 65 →
    s.busy = false → s.mode = .idle → IsHmac k m es → s.inputs = es →
    ∃ t, Host.Core.run core es.length s = .next t ∧ t.inputs = [] ∧ t.busy = false ∧ t.mode = .idle ∧
      t.digestValid = true ∧ t.dsrc = .tag ∧ readDigest t = hmac k m ∧ ErrorKept s t ∧
      t.keyValid = false ∧ t.k0 = zeroBytes

/-- R117, R118, R284: `VERIFY_HMAC <key>, <m>, <r>` on an idle core ends with the last `STATUS` read showing
`RESULT_VALID` and, in `MATCH`, whether `r` is the tag; with no error raised. -/
def Obligations.VerifySequenceGivesVerdict : Prop :=
  ∀ (k m r : List Byte) (es : List Event) (s : State), k.length ≤ 2 ^ 61 - 1 → m.length ≤ 2 ^ 61 - 65 →
    s.busy = false → s.mode = .idle → IsVerifyHmac k m r es → s.inputs = es →
    ∃ t w, Host.Core.run core es.length s = .next t ∧ t.inputs = [] ∧ t.lastRead = some w ∧
      w.getLsbD 5 = true ∧ w.getLsbD 6 = verifyTag (hmac k m) r ∧
      (w.getLsbD 6 = true ↔ r = hmac k m) ∧ ErrorKept s t

/-! ### What the host can learn -/

/-- R56: of two states that differ at most in hidden state, every offset of the window reads the same, and `irq` is the
same. -/
def Obligations.HiddenStateUnreadable : Prop :=
  ∀ (s t : State) (off : BitVec 8), Indistinguishable s t →
    readWindow off s = readWindow off t ∧ s.irq = t.irq

/-- R260, R318: no step lets hidden state out, but for the two completions whose result the host may read: the `FINISH` of
a HASH session and `HMAC_OUTER`. No interleaving of accesses, completions and resets makes another. -/
def Obligations.OnlyResultsLeaveTheCore : Prop :=
  ∀ s t s' : State, Inv s → Indistinguishable s t → step s = .next s' →
    ∃ t', step t = .next t' ∧ (ReleasesDigest s ∨ Indistinguishable s' t')
end

