-- ==== Sys2Proof/Laws/State.lean ====
section
/-! SUPPORT. What each shared update of the state does to each field, so that no proof unfolds an update. -/

namespace Sys2Proof.Machine

/-! `raiseError` -/

@[simp] theorem raiseError_irqEn (c : ErrCode) (s : State) : (raiseError c s).irqEn = s.irqEn := rfl
@[simp] theorem raiseError_din (c : ErrCode) (s : State) : (raiseError c s).din = s.din := rfl
@[simp] theorem raiseError_tagLen (c : ErrCode) (s : State) : (raiseError c s).tagLen = s.tagLen := rfl
@[simp] theorem raiseError_tag (c : ErrCode) (s : State) : (raiseError c s).tag = s.tag := rfl
@[simp] theorem raiseError_mode (c : ErrCode) (s : State) : (raiseError c s).mode = s.mode := rfl
@[simp] theorem raiseError_sess (c : ErrCode) (s : State) : (raiseError c s).sess = s.sess := rfl
@[simp] theorem raiseError_k0 (c : ErrCode) (s : State) : (raiseError c s).k0 = s.k0 := rfl
@[simp] theorem raiseError_keyValid (c : ErrCode) (s : State) : (raiseError c s).keyValid = s.keyValid := rfl
@[simp] theorem raiseError_d (c : ErrCode) (s : State) : (raiseError c s).d = s.d := rfl
@[simp] theorem raiseError_digestValid (c : ErrCode) (s : State) : (raiseError c s).digestValid = s.digestValid := rfl
@[simp] theorem raiseError_dsrc (c : ErrCode) (s : State) : (raiseError c s).dsrc = s.dsrc := rfl
@[simp] theorem raiseError_resultValid (c : ErrCode) (s : State) : (raiseError c s).resultValid = s.resultValid := rfl
@[simp] theorem raiseError_matched (c : ErrCode) (s : State) : (raiseError c s).matched = s.matched := rfl
@[simp] theorem raiseError_done (c : ErrCode) (s : State) : (raiseError c s).done = s.done := rfl
@[simp] theorem raiseError_err (c : ErrCode) (s : State) : (raiseError c s).err = true := rfl
@[simp] theorem raiseError_errcode (c : ErrCode) (s : State) : (raiseError c s).errcode = if s.err then s.errcode else c := rfl
@[simp] theorem raiseError_pending (c : ErrCode) (s : State) : (raiseError c s).pending = s.pending := rfl
@[simp] theorem raiseError_scratch (c : ErrCode) (s : State) : (raiseError c s).scratch = s.scratch := rfl
@[simp] theorem raiseError_inputs (c : ErrCode) (s : State) : (raiseError c s).inputs = s.inputs := rfl
@[simp] theorem raiseError_lastRead (c : ErrCode) (s : State) : (raiseError c s).lastRead = s.lastRead := rfl
@[simp] theorem raiseError_freeSeq (c : ErrCode) (s : State) : (raiseError c s).freeSeq = s.freeSeq := rfl
@[simp] theorem raiseError_busy (c : ErrCode) (s : State) : (raiseError c s).busy = s.busy := rfl

/-! `clearError` -/

@[simp] theorem clearError_irqEn (s : State) : (clearError s).irqEn = s.irqEn := rfl
@[simp] theorem clearError_din (s : State) : (clearError s).din = s.din := rfl
@[simp] theorem clearError_tagLen (s : State) : (clearError s).tagLen = s.tagLen := rfl
@[simp] theorem clearError_tag (s : State) : (clearError s).tag = s.tag := rfl
@[simp] theorem clearError_mode (s : State) : (clearError s).mode = s.mode := rfl
@[simp] theorem clearError_sess (s : State) : (clearError s).sess = s.sess := rfl
@[simp] theorem clearError_k0 (s : State) : (clearError s).k0 = s.k0 := rfl
@[simp] theorem clearError_keyValid (s : State) : (clearError s).keyValid = s.keyValid := rfl
@[simp] theorem clearError_d (s : State) : (clearError s).d = s.d := rfl
@[simp] theorem clearError_digestValid (s : State) : (clearError s).digestValid = s.digestValid := rfl
@[simp] theorem clearError_dsrc (s : State) : (clearError s).dsrc = s.dsrc := rfl
@[simp] theorem clearError_resultValid (s : State) : (clearError s).resultValid = s.resultValid := rfl
@[simp] theorem clearError_matched (s : State) : (clearError s).matched = s.matched := rfl
@[simp] theorem clearError_done (s : State) : (clearError s).done = s.done := rfl
@[simp] theorem clearError_err (s : State) : (clearError s).err = false := rfl
@[simp] theorem clearError_errcode (s : State) : (clearError s).errcode = .none := rfl
@[simp] theorem clearError_pending (s : State) : (clearError s).pending = s.pending := rfl
@[simp] theorem clearError_scratch (s : State) : (clearError s).scratch = s.scratch := rfl
@[simp] theorem clearError_inputs (s : State) : (clearError s).inputs = s.inputs := rfl
@[simp] theorem clearError_lastRead (s : State) : (clearError s).lastRead = s.lastRead := rfl
@[simp] theorem clearError_freeSeq (s : State) : (clearError s).freeSeq = s.freeSeq := rfl
@[simp] theorem clearError_busy (s : State) : (clearError s).busy = s.busy := rfl

/-! `accept` -/

@[simp] theorem accept_irqEn (v : Word) (s : State) : (accept v s).irqEn = s.irqEn := rfl
@[simp] theorem accept_din (v : Word) (s : State) : (accept v s).din = s.din := rfl
@[simp] theorem accept_tagLen (v : Word) (s : State) : (accept v s).tagLen = s.tagLen := rfl
@[simp] theorem accept_tag (v : Word) (s : State) : (accept v s).tag = s.tag := rfl
@[simp] theorem accept_mode (v : Word) (s : State) : (accept v s).mode = s.mode := rfl
@[simp] theorem accept_sess (v : Word) (s : State) : (accept v s).sess = s.sess := rfl
@[simp] theorem accept_k0 (v : Word) (s : State) : (accept v s).k0 = s.k0 := rfl
@[simp] theorem accept_keyValid (v : Word) (s : State) : (accept v s).keyValid = s.keyValid := rfl
@[simp] theorem accept_d (v : Word) (s : State) : (accept v s).d = s.d := rfl
@[simp] theorem accept_digestValid (v : Word) (s : State) : (accept v s).digestValid = s.digestValid := rfl
@[simp] theorem accept_dsrc (v : Word) (s : State) : (accept v s).dsrc = s.dsrc := rfl
@[simp] theorem accept_resultValid (v : Word) (s : State) : (accept v s).resultValid = false := rfl
@[simp] theorem accept_matched (v : Word) (s : State) : (accept v s).matched = false := rfl
@[simp] theorem accept_done (v : Word) (s : State) : (accept v s).done = false := rfl
@[simp] theorem accept_err (v : Word) (s : State) : (accept v s).err = s.err := rfl
@[simp] theorem accept_errcode (v : Word) (s : State) : (accept v s).errcode = s.errcode := rfl
@[simp] theorem accept_pending (v : Word) (s : State) : (accept v s).pending = some { cmd := v, din := s.din } := rfl
@[simp] theorem accept_scratch (v : Word) (s : State) : (accept v s).scratch = s.scratch := rfl
@[simp] theorem accept_inputs (v : Word) (s : State) : (accept v s).inputs = s.inputs := rfl
@[simp] theorem accept_lastRead (v : Word) (s : State) : (accept v s).lastRead = s.lastRead := rfl
@[simp] theorem accept_freeSeq (v : Word) (s : State) : (accept v s).freeSeq = s.freeSeq := rfl
@[simp] theorem accept_busy (v : Word) (s : State) : (accept v s).busy = true := rfl

/-! `scrambleScratch` -/

@[simp] theorem scrambleScratch_irqEn (s : State) : (scrambleScratch s).irqEn = s.irqEn := rfl
@[simp] theorem scrambleScratch_din (s : State) : (scrambleScratch s).din = s.din := rfl
@[simp] theorem scrambleScratch_tagLen (s : State) : (scrambleScratch s).tagLen = s.tagLen := rfl
@[simp] theorem scrambleScratch_tag (s : State) : (scrambleScratch s).tag = s.tag := rfl
@[simp] theorem scrambleScratch_mode (s : State) : (scrambleScratch s).mode = s.mode := rfl
@[simp] theorem scrambleScratch_sess (s : State) : (scrambleScratch s).sess = s.sess := rfl
@[simp] theorem scrambleScratch_k0 (s : State) : (scrambleScratch s).k0 = s.k0 := rfl
@[simp] theorem scrambleScratch_keyValid (s : State) : (scrambleScratch s).keyValid = s.keyValid := rfl
@[simp] theorem scrambleScratch_d (s : State) : (scrambleScratch s).d = s.d := rfl
@[simp] theorem scrambleScratch_digestValid (s : State) : (scrambleScratch s).digestValid = s.digestValid := rfl
@[simp] theorem scrambleScratch_dsrc (s : State) : (scrambleScratch s).dsrc = s.dsrc := rfl
@[simp] theorem scrambleScratch_resultValid (s : State) : (scrambleScratch s).resultValid = s.resultValid := rfl
@[simp] theorem scrambleScratch_matched (s : State) : (scrambleScratch s).matched = s.matched := rfl
@[simp] theorem scrambleScratch_done (s : State) : (scrambleScratch s).done = s.done := rfl
@[simp] theorem scrambleScratch_err (s : State) : (scrambleScratch s).err = s.err := rfl
@[simp] theorem scrambleScratch_errcode (s : State) : (scrambleScratch s).errcode = s.errcode := rfl
@[simp] theorem scrambleScratch_pending (s : State) : (scrambleScratch s).pending = s.pending := rfl
@[simp] theorem scrambleScratch_scratch (s : State) : (scrambleScratch s).scratch = Config.freeScratch s.freeSeq := rfl
@[simp] theorem scrambleScratch_inputs (s : State) : (scrambleScratch s).inputs = s.inputs := rfl
@[simp] theorem scrambleScratch_lastRead (s : State) : (scrambleScratch s).lastRead = s.lastRead := rfl
@[simp] theorem scrambleScratch_freeSeq (s : State) : (scrambleScratch s).freeSeq = s.freeSeq + 1 := rfl
@[simp] theorem scrambleScratch_busy (s : State) : (scrambleScratch s).busy = s.busy := rfl

/-! `retire` -/

@[simp] theorem retire_irqEn (s : State) : (retire s).irqEn = s.irqEn := rfl
@[simp] theorem retire_din (s : State) : (retire s).din = s.din := rfl
@[simp] theorem retire_tagLen (s : State) : (retire s).tagLen = s.tagLen := rfl
@[simp] theorem retire_tag (s : State) : (retire s).tag = s.tag := rfl
@[simp] theorem retire_mode (s : State) : (retire s).mode = s.mode := rfl
@[simp] theorem retire_sess (s : State) : (retire s).sess = s.sess := rfl
@[simp] theorem retire_k0 (s : State) : (retire s).k0 = s.k0 := rfl
@[simp] theorem retire_keyValid (s : State) : (retire s).keyValid = s.keyValid := rfl
@[simp] theorem retire_d (s : State) : (retire s).d = s.d := rfl
@[simp] theorem retire_digestValid (s : State) : (retire s).digestValid = s.digestValid := rfl
@[simp] theorem retire_dsrc (s : State) : (retire s).dsrc = s.dsrc := rfl
@[simp] theorem retire_resultValid (s : State) : (retire s).resultValid = s.resultValid := rfl
@[simp] theorem retire_matched (s : State) : (retire s).matched = s.matched := rfl
@[simp] theorem retire_done (s : State) : (retire s).done = true := rfl
@[simp] theorem retire_err (s : State) : (retire s).err = s.err := rfl
@[simp] theorem retire_errcode (s : State) : (retire s).errcode = s.errcode := rfl
@[simp] theorem retire_pending (s : State) : (retire s).pending = none := rfl
@[simp] theorem retire_scratch (s : State) : (retire s).scratch = Config.freeScratch s.freeSeq := rfl
@[simp] theorem retire_inputs (s : State) : (retire s).inputs = s.inputs := rfl
@[simp] theorem retire_lastRead (s : State) : (retire s).lastRead = s.lastRead := rfl
@[simp] theorem retire_freeSeq (s : State) : (retire s).freeSeq = s.freeSeq + 1 := rfl
@[simp] theorem retire_busy (s : State) : (retire s).busy = false := rfl

/-! `storeKey` -/

@[simp] theorem storeKey_irqEn (k : Bytes64) (s : State) : (storeKey k s).irqEn = s.irqEn := rfl
@[simp] theorem storeKey_din (k : Bytes64) (s : State) : (storeKey k s).din = s.din := rfl
@[simp] theorem storeKey_tagLen (k : Bytes64) (s : State) : (storeKey k s).tagLen = s.tagLen := rfl
@[simp] theorem storeKey_tag (k : Bytes64) (s : State) : (storeKey k s).tag = s.tag := rfl
@[simp] theorem storeKey_mode (k : Bytes64) (s : State) : (storeKey k s).mode = .idle := rfl
@[simp] theorem storeKey_sess (k : Bytes64) (s : State) : (storeKey k s).sess = s.sess.close := rfl
@[simp] theorem storeKey_k0 (k : Bytes64) (s : State) : (storeKey k s).k0 = k := rfl
@[simp] theorem storeKey_keyValid (k : Bytes64) (s : State) : (storeKey k s).keyValid = true := rfl
@[simp] theorem storeKey_d (k : Bytes64) (s : State) : (storeKey k s).d = s.d := rfl
@[simp] theorem storeKey_digestValid (k : Bytes64) (s : State) : (storeKey k s).digestValid = s.digestValid := rfl
@[simp] theorem storeKey_dsrc (k : Bytes64) (s : State) : (storeKey k s).dsrc = s.dsrc := rfl
@[simp] theorem storeKey_resultValid (k : Bytes64) (s : State) : (storeKey k s).resultValid = s.resultValid := rfl
@[simp] theorem storeKey_matched (k : Bytes64) (s : State) : (storeKey k s).matched = s.matched := rfl
@[simp] theorem storeKey_done (k : Bytes64) (s : State) : (storeKey k s).done = s.done := rfl
@[simp] theorem storeKey_err (k : Bytes64) (s : State) : (storeKey k s).err = s.err := rfl
@[simp] theorem storeKey_errcode (k : Bytes64) (s : State) : (storeKey k s).errcode = s.errcode := rfl
@[simp] theorem storeKey_pending (k : Bytes64) (s : State) : (storeKey k s).pending = s.pending := rfl
@[simp] theorem storeKey_scratch (k : Bytes64) (s : State) : (storeKey k s).scratch = s.scratch := rfl
@[simp] theorem storeKey_inputs (k : Bytes64) (s : State) : (storeKey k s).inputs = s.inputs := rfl
@[simp] theorem storeKey_lastRead (k : Bytes64) (s : State) : (storeKey k s).lastRead = s.lastRead := rfl
@[simp] theorem storeKey_freeSeq (k : Bytes64) (s : State) : (storeKey k s).freeSeq = s.freeSeq := rfl
@[simp] theorem storeKey_busy (k : Bytes64) (s : State) : (storeKey k s).busy = s.busy := rfl

/-! `resetCore` -/

@[simp] theorem resetCore_irqEn (s : State) : (resetCore s).irqEn = false := rfl
@[simp] theorem resetCore_din (s : State) : (resetCore s).din = 0 := rfl
@[simp] theorem resetCore_tagLen (s : State) : (resetCore s).tagLen = 0 := rfl
@[simp] theorem resetCore_tag (s : State) : (resetCore s).tag = zeroWords := rfl
@[simp] theorem resetCore_mode (s : State) : (resetCore s).mode = .idle := rfl
@[simp] theorem resetCore_sess (s : State) : (resetCore s).sess = Session.reset := rfl
@[simp] theorem resetCore_k0 (s : State) : (resetCore s).k0 = zeroBytes := rfl
@[simp] theorem resetCore_keyValid (s : State) : (resetCore s).keyValid = false := rfl
@[simp] theorem resetCore_d (s : State) : (resetCore s).d = zeroWords := rfl
@[simp] theorem resetCore_digestValid (s : State) : (resetCore s).digestValid = false := rfl
@[simp] theorem resetCore_dsrc (s : State) : (resetCore s).dsrc = .none := rfl
@[simp] theorem resetCore_resultValid (s : State) : (resetCore s).resultValid = false := rfl
@[simp] theorem resetCore_matched (s : State) : (resetCore s).matched = false := rfl
@[simp] theorem resetCore_done (s : State) : (resetCore s).done = false := rfl
@[simp] theorem resetCore_err (s : State) : (resetCore s).err = false := rfl
@[simp] theorem resetCore_errcode (s : State) : (resetCore s).errcode = .none := rfl
@[simp] theorem resetCore_pending (s : State) : (resetCore s).pending = none := rfl
@[simp] theorem resetCore_scratch (s : State) : (resetCore s).scratch = Config.freeScratch s.freeSeq := rfl
@[simp] theorem resetCore_inputs (s : State) : (resetCore s).inputs = s.inputs := rfl
@[simp] theorem resetCore_lastRead (s : State) : (resetCore s).lastRead = s.lastRead := rfl
@[simp] theorem resetCore_freeSeq (s : State) : (resetCore s).freeSeq = s.freeSeq + 1 := rfl
@[simp] theorem resetCore_busy (s : State) : (resetCore s).busy = false := rfl

/-! `writeStatus` -/

@[simp] theorem writeStatus_irqEn (v : Word) (s : State) : (writeStatus v s).irqEn = s.irqEn := by
  unfold writeStatus; split <;> split <;> rfl
@[simp] theorem writeStatus_din (v : Word) (s : State) : (writeStatus v s).din = s.din := by
  unfold writeStatus; split <;> split <;> rfl
@[simp] theorem writeStatus_tagLen (v : Word) (s : State) : (writeStatus v s).tagLen = s.tagLen := by
  unfold writeStatus; split <;> split <;> rfl
@[simp] theorem writeStatus_tag (v : Word) (s : State) : (writeStatus v s).tag = s.tag := by
  unfold writeStatus; split <;> split <;> rfl
@[simp] theorem writeStatus_mode (v : Word) (s : State) : (writeStatus v s).mode = s.mode := by
  unfold writeStatus; split <;> split <;> rfl
@[simp] theorem writeStatus_sess (v : Word) (s : State) : (writeStatus v s).sess = s.sess := by
  unfold writeStatus; split <;> split <;> rfl
@[simp] theorem writeStatus_k0 (v : Word) (s : State) : (writeStatus v s).k0 = s.k0 := by
  unfold writeStatus; split <;> split <;> rfl
@[simp] theorem writeStatus_keyValid (v : Word) (s : State) : (writeStatus v s).keyValid = s.keyValid := by
  unfold writeStatus; split <;> split <;> rfl
@[simp] theorem writeStatus_d (v : Word) (s : State) : (writeStatus v s).d = s.d := by
  unfold writeStatus; split <;> split <;> rfl
@[simp] theorem writeStatus_digestValid (v : Word) (s : State) : (writeStatus v s).digestValid = s.digestValid := by
  unfold writeStatus; split <;> split <;> rfl
@[simp] theorem writeStatus_dsrc (v : Word) (s : State) : (writeStatus v s).dsrc = s.dsrc := by
  unfold writeStatus; split <;> split <;> rfl
@[simp] theorem writeStatus_resultValid (v : Word) (s : State) : (writeStatus v s).resultValid = s.resultValid := by
  unfold writeStatus; split <;> split <;> rfl
@[simp] theorem writeStatus_matched (v : Word) (s : State) : (writeStatus v s).matched = s.matched := by
  unfold writeStatus; split <;> split <;> rfl
@[simp] theorem writeStatus_done (v : Word) (s : State) : (writeStatus v s).done = if v.getLsbD 1 then false else s.done := by
  unfold writeStatus; split <;> split <;> rfl
@[simp] theorem writeStatus_err (v : Word) (s : State) : (writeStatus v s).err = if v.getLsbD 2 then false else s.err := by
  unfold writeStatus; split <;> split <;> rfl
@[simp] theorem writeStatus_errcode (v : Word) (s : State) : (writeStatus v s).errcode = if v.getLsbD 2 then .none else s.errcode := by
  unfold writeStatus; split <;> split <;> rfl
@[simp] theorem writeStatus_pending (v : Word) (s : State) : (writeStatus v s).pending = s.pending := by
  unfold writeStatus; split <;> split <;> rfl
@[simp] theorem writeStatus_scratch (v : Word) (s : State) : (writeStatus v s).scratch = s.scratch := by
  unfold writeStatus; split <;> split <;> rfl
@[simp] theorem writeStatus_inputs (v : Word) (s : State) : (writeStatus v s).inputs = s.inputs := by
  unfold writeStatus; split <;> split <;> rfl
@[simp] theorem writeStatus_lastRead (v : Word) (s : State) : (writeStatus v s).lastRead = s.lastRead := by
  unfold writeStatus; split <;> split <;> rfl
@[simp] theorem writeStatus_freeSeq (v : Word) (s : State) : (writeStatus v s).freeSeq = s.freeSeq := by
  unfold writeStatus; split <;> split <;> rfl
@[simp] theorem writeStatus_busy (v : Word) (s : State) : (writeStatus v s).busy = s.busy := by
  unfold writeStatus; split <;> split <;> rfl

/-! The session's updates. -/

@[simp] theorem start_h : Session.start.h = iv := rfl
@[simp] theorem start_buf : Session.start.buf = zeroBytes := rfl
@[simp] theorem start_bcnt : Session.start.bcnt = 0 := rfl
@[simp] theorem start_nbytes : Session.start.nbytes = 0 := rfl
@[simp] theorem startWithBlock_h (b : Bytes64) : (Session.startWithBlock b).h = iv := rfl
@[simp] theorem startWithBlock_buf (b : Bytes64) : (Session.startWithBlock b).buf = b := rfl
@[simp] theorem startWithBlock_bcnt (b : Bytes64) : (Session.startWithBlock b).bcnt = 64 := rfl
@[simp] theorem startWithBlock_nbytes (b : Bytes64) : (Session.startWithBlock b).nbytes = 64 := rfl
@[simp] theorem close_h (x : Session) : x.close.h = zeroWords := rfl
@[simp] theorem close_buf (x : Session) : x.close.buf = zeroBytes := rfl
@[simp] theorem close_bcnt (x : Session) : x.close.bcnt = 0 := rfl
@[simp] theorem close_nbytes (x : Session) : x.close.nbytes = x.nbytes := rfl
@[simp] theorem compressBuf_h (x : Session) : x.compressBuf.h = compress x.h (parseBlock x.buf) := rfl
@[simp] theorem compressBuf_buf (x : Session) : x.compressBuf.buf = zeroBytes := rfl
@[simp] theorem compressBuf_bcnt (x : Session) : x.compressBuf.bcnt = 0 := rfl
@[simp] theorem compressBuf_nbytes (x : Session) : x.compressBuf.nbytes = x.nbytes := rfl
@[simp] theorem putByte_h (b : Byte) (x : Session) : (x.putByte b).h = x.h := rfl
@[simp] theorem putByte_buf (b : Byte) (x : Session) : (x.putByte b).buf = x.buf.setIfInBounds x.bcnt b := rfl
@[simp] theorem putByte_bcnt (b : Byte) (x : Session) : (x.putByte b).bcnt = x.bcnt + 1 := rfl
@[simp] theorem putByte_nbytes (b : Byte) (x : Session) : (x.putByte b).nbytes = x.nbytes := rfl
@[simp] theorem flushFull_nbytes (x : Session) : x.flushFull.nbytes = x.nbytes := by
  unfold Session.flushFull; split <;> rfl
@[simp] theorem absorb_nbytes (b : Byte) (x : Session) : (x.absorb b).nbytes = x.nbytes + 1 := by
  simp [Session.absorb]
@[simp] theorem absorbAll_nil (x : Session) : x.absorbAll [] = x := rfl
@[simp] theorem absorbAll_cons (b : Byte) (bs : List Byte) (x : Session) :
    x.absorbAll (b :: bs) = (x.absorb b).absorbAll bs := rfl
theorem absorbAll_append (a b : List Byte) (x : Session) :
    x.absorbAll (a ++ b) = (x.absorbAll a).absorbAll b := by simp [Session.absorbAll]

/-! `BUSY` is `PENDING`'s presence (R28). -/

theorem busy_eq_true_iff (s : State) : s.busy = true ↔ ∃ p, s.pending = some p := by
  simp [State.busy, Option.isSome_iff_exists]

theorem busy_eq_false_iff (s : State) : s.busy = false ↔ s.pending = none := by simp [State.busy]

end Sys2Proof.Machine
end

