-- ==== Sys2Proof/Laws/Ops.lean ====
section
/-! SUPPORT. What the shared operations can do, said once: a command's step, the padder's end, a `CMD` write, the
engine's turn. -/

namespace Sys2Proof.Machine

/-- `Finalise` always succeeds: its last assignment makes `BCNT` 64 (R166, R170). -/
theorem finalise_eq (x : Session) :
    x.finalise = some (compress x.padMark.padLength.h (parseBlock x.padMark.padLength.buf)) := by
  simp [Session.finalise, Session.padLength]

/-- `Exec` of a command (R135), on its own: what its completion commits. -/
def effectOf : Instr → Word → State → Outcome
  | .hashStart => effectHashStart
  | .keyStart => effectKeyStart
  | .hmacInnerStart => effectHmacInnerStart
  | .push n => effectPush n
  | .finish => effectFinish
  | .keyFinish => effectKeyFinish
  | .hmacOuter => effectHmacOuter
  | .verify => effectVerify
  | .clear => effectClear

/-- Every well-formed command goes through the one protocol. -/
theorem exec_eq_runCommand {i : Instr} (h : WellFormed i) (s : State) :
    exec i s = runCommand i (effectOf i) s := by
  cases i with
  | push n =>
    have hn : 1 ≤ n ∧ n ≤ 4 := by simpa [WellFormed, wellFormed] using h
    simp [exec, execPush, hn, effectOf]
  | _ => rfl

/-- With nothing in flight a command is checked, and accepted or refused (R130). -/
theorem exec_of_idle {i : Instr} {s : State} (h : WellFormed i) (hp : s.pending = none) :
    exec i s = present i s := by
  rw [exec_eq_runCommand h]; simp [runCommand, hp]

/-- In flight, a command completes with the latched `DIN` (R135). -/
theorem exec_of_inFlight {i : Instr} {s : State} {p : Pending} (h : WellFormed i) (hp : s.pending = some p) :
    exec i s = complete (effectOf i p.din s) := by
  rw [exec_eq_runCommand h]; simp [runCommand, hp]

theorem present_of_admitted {i : Instr} {s : State} (h : precheck i s = none) :
    present i s = .next (accept (encode i) s) := by simp [present, h]

theorem present_of_refused {i : Instr} {s : State} {e : ErrCode} (h : precheck i s = some e) :
    present i s = .next (raiseError e s) := by simp [present, h]

/-- A command is admitted where its two checks hold (R133). -/
theorem precheck_eq_none_iff {i : Instr} {s : State} : precheck i s = none ↔ preState i s = true ∧ lengthOk i s = true := by
  unfold precheck
  cases preState i s <;> cases lengthOk i s <;> simp

/-- The checks of a legal word raise STATE or LENGTH (R133). -/
theorem precheck_error {i : Instr} {s : State} {e : ErrCode} (h : precheck i s = some e) : e ≠ .none ∧ e ≠ .padInvariant := by
  unfold precheck at h
  cases hp : preState i s <;> cases hl : lengthOk i s <;> simp [hp, hl] at h <;> subst h <;> simp

@[simp] theorem complete_next (s : State) : complete (.next s) = .next (retire s) := rfl

/-- A command that completes commits its effect and ends. -/
theorem complete_eq_next {o : Outcome} {t : State} (h : complete o = .next t) :
    ∃ u, o = .next u ∧ t = retire u := by
  cases o with
  | next u => exact ⟨u, rfl, by simpa [complete] using h.symm⟩
  | fault r => simp [complete] at h
  | refused r => simp [complete] at h

/-- Everything one step of a well-formed command can do: it is refused, it is accepted, or it completes. -/
theorem exec_cases {i : Instr} {s t : State} (hi : WellFormed i) (h : exec i s = .next t) :
    (s.pending = none ∧ ∃ e, precheck i s = some e ∧ t = raiseError e s) ∨
    (s.pending = none ∧ precheck i s = none ∧ t = accept (encode i) s) ∨
    (∃ p u, s.pending = some p ∧ effectOf i p.din s = .next u ∧ t = retire u) := by
  cases hp : s.pending with
  | none =>
    rw [exec_of_idle hi hp] at h
    cases ha : precheck i s with
    | none => rw [present_of_admitted ha] at h; exact .inr (.inl ⟨rfl, rfl, by simpa using h.symm⟩)
    | some e => rw [present_of_refused ha] at h; exact .inl ⟨rfl, e, rfl, by simpa using h.symm⟩
  | some p =>
    rw [exec_of_inFlight hi hp] at h
    obtain ⟨u, hu, rfl⟩ := complete_eq_next h
    exact .inr (.inr ⟨p, u, rfl, hu, rfl⟩)

/-- What each completion commits, as a state: no effect stops. -/
def committed (i : Instr) (din : Word) (s : State) : State :=
  match i with
  | .hashStart =>
    { s with mode := .hash, sess := Session.start, d := zeroWords, digestValid := false, dsrc := .none }
  | .keyStart =>
    { s with mode := .key, sess := Session.start, k0 := zeroBytes, keyValid := false, d := zeroWords,
             digestValid := false, dsrc := .none }
  | .hmacInnerStart =>
    { s with mode := .inner, sess := Session.startWithBlock (xorRep s.k0 0x36#8), d := zeroWords,
             digestValid := false, dsrc := .none }
  | .push n => { s with sess := s.sess.absorbAll (pushBytes n din) }
  | .finish =>
    { s with d := compress s.sess.padMark.padLength.h (parseBlock s.sess.padMark.padLength.buf), digestValid := true,
             dsrc := if s.mode = .hash then .hash else .inner, mode := .idle, sess := s.sess.close }
  | .keyFinish =>
    storeKey (if s.sess.nbytes.toNat ≤ 64 then s.sess.buf else toBytes64
      (ser (compress s.sess.padMark.padLength.h (parseBlock s.sess.padMark.padLength.buf)) ++ zeros 32)) s
  | .hmacOuter =>
    { s with d := compress (outerSession s.k0 s.d).padMark.padLength.h
               (parseBlock (outerSession s.k0 s.d).padMark.padLength.buf),
             digestValid := true, dsrc := .tag, k0 := zeroBytes, keyValid := false,
             sess := (outerSession s.k0 s.d).close }
  | .verify => { s with resultValid := true, matched := verdict s }
  | .clear =>
    { State.reset with irqEn := s.irqEn, scratch := s.scratch, inputs := s.inputs, lastRead := s.lastRead,
                       freeSeq := s.freeSeq }

/-- No effect of a command faults or refuses (R138). -/
theorem effectOf_eq (i : Instr) (din : Word) (s : State) : effectOf i din s = .next (committed i din s) := by
  cases i with
  | finish => simp [effectOf, effectFinish, committed, finalise_eq]
  | keyFinish =>
    simp only [effectOf, effectKeyFinish, committed, finalise_eq]
    split <;> rfl
  | hmacOuter => simp [effectOf, effectHmacOuter, committed, finalise_eq]
  | _ => rfl

/-- A command in flight completes, from every state (R138). -/
theorem exec_completes {i : Instr} {s : State} {p : Pending} (h : WellFormed i) (hp : s.pending = some p) :
    exec i s = .next (retire (committed i p.din s)) := by
  rw [exec_of_inFlight h hp, effectOf_eq, complete_next]

/-- The decoder gives well-formed commands alone. -/
theorem wellFormed_of_decode {v : Word} {i : Instr} (h : decode v = .ok i) : WellFormed i := by
  unfold decode at h
  split at h
  · cases h
  · split at h <;> first
      | (unfold decodePlain at h; split at h <;> first | (cases h; rfl) | cases h)
      | (cases h; have := (nbm1Field v).isLt; simp [WellFormed, wellFormed]; omega)
      | cases h

/-- Everything a `CMD` write can do (R130, R133). -/
theorem commandWrite_cases {v : Word} {s t : State} (h : commandWrite v s = .next t) :
    (∃ e, t = raiseError e s ∧ (s.busy = true → e = .busy) ∧ e ≠ .none ∧ e ≠ .padInvariant) ∨
    (s.busy = false ∧ ∃ i, decode v = .ok i ∧ precheck i s = none ∧ t = accept (encode i) s) := by
  unfold commandWrite at h
  split at h
  · exact .inl ⟨.busy, by simpa using h.symm, fun _ => rfl, by simp, by simp⟩
  · rename_i hb
    have hb' : s.busy = false := by simpa using hb
    split at h
    · exact .inl ⟨.illegalCmd, by simpa using h.symm, fun hc => by simp [hb'] at hc, by simp, by simp⟩
    · rename_i i hd
      have hp := (busy_eq_false_iff s).1 hb'
      rcases exec_cases (wellFormed_of_decode hd) h with ⟨_, e, he, rfl⟩ | ⟨_, ha, rfl⟩ | ⟨p, _, hp', _, _⟩
      · exact .inl ⟨e, rfl, fun hc => by simp [hb'] at hc, precheck_error he⟩
      · exact .inr ⟨hb', i, hd, ha, rfl⟩
      · simp [hp] at hp'

/-- Everything the engine's turn can do (R135). -/
theorem engineTurn_cases {s t : State} (h : engineTurn s = .next t) :
    (s.pending = none ∧ t = s) ∨
    (∃ p i, s.pending = some p ∧ decode p.cmd = .ok i ∧ t = retire (committed i p.din s)) := by
  unfold engineTurn at h
  split at h
  · rename_i hp; exact .inl ⟨hp, by simpa using h.symm⟩
  · rename_i p hp
    split at h
    · rename_i i hd
      rw [exec_completes (wellFormed_of_decode hd) hp] at h
      exact .inr ⟨p, i, hp, hd, by simpa using h.symm⟩
    · cases h

end Sys2Proof.Machine
end

