-- ==== Sys2Proof/Laws/Parsing.lean ====
section
/-! SUPPORT. Byte strings as 64-byte rows, and how `Parse` and the chain of compressions split over them. -/

namespace Sys2Proof.Machine

@[simp] theorem toBytes64_getElem (l : List Byte) (i : Nat) (h : i < 64) : (toBytes64 l)[i] = l.getD i 0#8 := by
  simp [toBytes64]

@[simp] theorem zeroBytes_getElem (i : Nat) (h : i < 64) : zeroBytes[i] = 0#8 := by simp [zeroBytes]

@[simp] theorem zeroWords_getElem (i : Nat) (h : i < 8) : zeroWords[i] = 0#32 := by simp [zeroWords]

@[simp] theorem zeros_length (n : Nat) : (zeros n).length = n := by simp [zeros]

@[simp] theorem zeros_getD (n i : Nat) : (zeros n).getD i 0#8 = 0#8 := by
  simp only [zeros, List.getD_eq_getElem?_getD, List.getElem?_replicate]
  split <;> rfl

/-- Two strings with the same bytes, 0 counting for none, are the same row. -/
theorem toBytes64_congr {a b : List Byte} (h : ∀ i, i < 64 → a.getD i 0#8 = b.getD i 0#8) :
    toBytes64 a = toBytes64 b := by
  apply Vector.ext; intro i hi; simpa using h i hi

theorem getD_append_zeros (l : List Byte) (n i : Nat) : (l ++ zeros n).getD i 0#8 = l.getD i 0#8 := by
  by_cases h : i < l.length
  · rw [List.getD_append _ _ _ _ h]
  · rw [List.getD_append_right _ _ _ _ (by omega), zeros_getD, List.getD_eq_default _ _ (by omega)]

/-- Zeros on the right change no row. -/
theorem toBytes64_append_zeros (l : List Byte) (n : Nat) : toBytes64 (l ++ zeros n) = toBytes64 l :=
  toBytes64_congr fun i _ => getD_append_zeros l n i

@[simp] theorem toBytes64_nil : toBytes64 [] = zeroBytes := by
  apply Vector.ext; intro i hi; simp

/-- A row as a string is the string, zeros on its right. -/
theorem toBytes64_toList {l : List Byte} (h : l.length ≤ 64) : (toBytes64 l).toList = l ++ zeros (64 - l.length) := by
  apply List.ext_getElem
  · simp; omega
  · intro i h1 h2
    have hi : i < 64 := by simpa using h1
    rw [Vector.getElem_toList, toBytes64_getElem _ _ hi, ← getD_append_zeros l (64 - l.length),
      List.getD_eq_getElem _ _ h2]

/-- A row is the row of its bytes. -/
theorem toBytes64_of_toList (b : Bytes64) : toBytes64 b.toList = b := by
  apply Vector.ext; intro i hi
  rw [toBytes64_getElem _ _ hi, List.getD_eq_getElem _ _ (by simpa using hi), Vector.getElem_toList]

/-- One byte more, at its index. -/
theorem toBytes64_snoc (l : List Byte) (b : Byte) :
    (toBytes64 l).setIfInBounds l.length b = toBytes64 (l ++ [b]) := by
  apply Vector.ext; intro i hi
  rw [Vector.getElem_setIfInBounds, toBytes64_getElem _ _ hi, toBytes64_getElem _ _ hi]
  split
  · rename_i he; subst he; simp
  · rename_i he
    by_cases hl : i < l.length
    · rw [List.getD_append _ _ _ _ hl]
    · rw [List.getD_eq_default _ _ (by omega), List.getD_eq_default _ _ (by simp; omega)]

theorem blockOf_append_left {a : List Byte} (b : List Byte) {i n : Nat} (hn : a.length = 64 * n) (hi : i < n) :
    blockOf (a ++ b) i = blockOf a i := by
  apply Vector.ext; intro j hj
  simp only [blockOf, Vector.getElem_ofFn]
  rw [List.getD_append _ _ _ _ (by omega), List.getD_append _ _ _ _ (by omega), List.getD_append _ _ _ _ (by omega),
    List.getD_append _ _ _ _ (by omega)]

theorem blockOf_append_right {a : List Byte} (b : List Byte) {n : Nat} (i : Nat) (hn : a.length = 64 * n) :
    blockOf (a ++ b) (n + i) = blockOf b i := by
  apply Vector.ext; intro j hj
  simp only [blockOf, Vector.getElem_ofFn]
  have e : ∀ k, 64 * (n + i) + 4 * j + k - a.length = 64 * i + 4 * j + k := by omega
  have e0 : 64 * (n + i) + 4 * j - a.length = 64 * i + 4 * j := by omega
  rw [List.getD_append_right _ _ _ _ (by omega), List.getD_append_right _ _ _ _ (by omega),
    List.getD_append_right _ _ _ _ (by omega), List.getD_append_right _ _ _ _ (by omega), e, e, e, e0]

/-- `Parse` of whole blocks and then more. -/
theorem parse_append {a : List Byte} (b : List Byte) (h : 64 ∣ a.length) : parse (a ++ b) = parse a ++ parse b := by
  obtain ⟨n, hn⟩ := h
  have h1 : (a ++ b).length / 64 = n + b.length / 64 := by rw [List.length_append, hn]; omega
  have h2 : a.length / 64 = n := by omega
  have e1 : (List.range n).map (blockOf (a ++ b)) = (List.range n).map (blockOf a) :=
    List.map_congr_left fun i hi => blockOf_append_left b hn (List.mem_range.1 hi)
  have e2 : (List.range (b.length / 64)).map (fun i => blockOf (a ++ b) (n + i)) =
      (List.range (b.length / 64)).map (blockOf b) :=
    List.map_congr_left fun i _ => blockOf_append_right b i hn
  unfold parse
  rw [h1, h2, List.range_add, List.map_append, List.map_map, e1]
  exact congrArg _ e2

@[simp] theorem parse_nil : parse [] = [] := rfl

/-- `Parse` of one block is `ParseBlock` of its row (R182). -/
theorem parse_one {c : List Byte} (h : c.length = 64) : parse c = [parseBlock (toBytes64 c)] := by
  have h1 : c.length / 64 = 1 := by omega
  simp only [parse, h1, List.range_one, List.map_cons, List.map_nil, List.cons.injEq, and_true]
  apply Vector.ext; intro j hj
  simp [blockOf, parseBlock]

@[simp] theorem chain_nil : chain [] = iv := rfl

theorem chain_snoc (l : List Block) (m : Block) : chain (l ++ [m]) = compress (chain l) m := by
  simp [chain]

/-- One more block on the chain, from its 64 bytes. -/
theorem chain_parse_block {a c : List Byte} (ha : 64 ∣ a.length) (hc : c.length = 64) :
    chain (parse (a ++ c)) = compress (chain (parse a)) (parseBlock (toBytes64 c)) := by
  rw [parse_append _ ha, parse_one hc, chain_snoc]

@[simp] theorem bytes32_length (w : Word) : (bytes32 w).length = 4 := rfl

@[simp] theorem ser_length (x : Words8) : (ser x).length = 32 := by
  simp [ser, List.length_flatMap]

@[simp] theorem digest_length (s : List Byte) : (digest s).length = 32 := ser_length _

@[simp] theorem be64bytes_length (v : BitVec 64) : (be64bytes v).length = 8 := rfl

/-- The byte form's length is a multiple of 64 (R162). -/
theorem padByteForm_length (s : List Byte) : (padByteForm s).length = 64 * ((s.length + 8) / 64 + 1) := by
  simp only [padByteForm, List.length_append, List.length_cons, List.length_nil, zeros_length, be64bytes_length,
    padZeroBytes]
  omega

end Sys2Proof.Machine
end

