-- ==== Sys2Proof/Laws/PerInstr.lean ====
section
/-! SUPPORT. Facts about each command as syntax, one lemma a constructor. -/

namespace Sys2Proof.Laws.RoundTrip

/-- A well-formed command is what its own word decodes to. -/
def Statement (i : Instr) : Prop := WellFormed i → decode (encode i) = .ok i

theorem hashStart : Statement .hashStart := fun _ => by decide
theorem keyStart : Statement .keyStart := fun _ => by decide
theorem hmacInnerStart : Statement .hmacInnerStart := fun _ => by decide
theorem push (n : Nat) : Statement (.push n) := fun h => by
  have hn : 1 ≤ n ∧ n ≤ 4 := by simpa [WellFormed, wellFormed] using h
  obtain ⟨h1, h4⟩ := hn
  interval_cases n <;> decide
theorem finish : Statement .finish := fun _ => by decide
theorem keyFinish : Statement .keyFinish := fun _ => by decide
theorem hmacOuter : Statement .hmacOuter := fun _ => by decide
theorem verify : Statement .verify := fun _ => by decide
theorem clear : Statement .clear := fun _ => by decide

end Sys2Proof.Laws.RoundTrip
end

