-- ==== Sys2Proof/Laws/Step.lean ====
section
/-! SUPPORT. Everything a register write, an event and a step can do. -/

namespace Sys2Proof.Machine

/-- Everything a register write can do (R73 to R76). -/
theorem writeReg_cases {r : Reg} {v : Word} {s t : State} (h : writeReg r v s = .next t) :
    (r = .ctrl ∧ t = { s with irqEn := v.getLsbD 0 }) ∨
    (r = .status ∧ t = writeStatus v s) ∨
    (r = .cmd ∧ commandWrite v s = .next t) ∨
    (r = .din ∧ t = { s with din := v }) ∨
    (r = .tagLen ∧ s.busy = false ∧ t = { s with tagLen := v }) ∨
    (∃ i, r = .tag i ∧ s.busy = false ∧ t = { s with tag := s.tag.set i v }) ∨
    ((r = .tagLen ∨ ∃ i, r = .tag i) ∧ s.busy = true ∧ t = raiseError .busy s) ∨
    t = s := by
  cases r with
  | ctrl => exact .inl ⟨rfl, by simpa [writeReg] using h.symm⟩
  | status => exact .inr (.inl ⟨rfl, by simpa [writeReg] using h.symm⟩)
  | cmd => exact .inr (.inr (.inl ⟨rfl, h⟩))
  | din => exact .inr (.inr (.inr (.inl ⟨rfl, by simpa [writeReg] using h.symm⟩)))
  | tagLen =>
    cases hb : s.busy with
    | false => simp [writeReg, writeUnlessBusy, hb] at h; simp [h]
    | true => simp [writeReg, writeUnlessBusy, hb] at h; simp [h]
  | tag i =>
    cases hb : s.busy with
    | false => simp [writeReg, writeUnlessBusy, hb] at h; simp [h]
    | true => simp [writeReg, writeUnlessBusy, hb] at h; simp [h]
  | _ => simp [writeReg] at h; simp [h]

/-- The state a step's event acts on: the input taken. -/
def State.rest (s : State) : State := { s with inputs := s.inputs.tail }

/-- Everything a step can do (R17): the engine's turn, a reset, a register write, or what changes nothing of the core. -/
theorem step_cases {s t : State} (h : step s = .next t) :
    (EngineNext s ∧ engineTurn s.rest = .next t) ∨
    (ResetNext s ∧ t = resetCore s.rest) ∨
    (∃ r v, WritesNext r v s ∧ writeReg r v s.rest = .next t) ∨
    (∃ w, t = { s.rest with lastRead := w }) := by
  cases hi : s.inputs with
  | nil =>
    have hs : s.rest = s := by
      cases s; simp only at hi; subst hi; rfl
    exact .inl ⟨.inl hi, by simpa [step, hi, hs] using h⟩
  | cons e rest =>
    have hs : { s with inputs := rest } = s.rest := by simp [State.rest, hi]
    simp only [step, hi, hs] at h
    cases e with
    | engine => exact .inl ⟨.inr ⟨rest, hi⟩, h⟩
    | reset => exact .inr (.inl ⟨⟨rest, hi⟩, by simpa [takeEvent] using h.symm⟩)
    | read off => exact .inr (.inr (.inr ⟨some (readWindow off s.rest), by simpa [takeEvent, busRead] using h.symm⟩))
    | write off v => exact .inr (.inr (.inl ⟨regAt off, v, .inl ⟨off, rest, hi, rfl⟩, h⟩))
    | readAt addr =>
      simp only [takeEvent] at h
      split at h
      · rename_i off _
        exact .inr (.inr (.inr ⟨some (readWindow off s.rest), by simpa [busRead] using h.symm⟩))
      · exact .inr (.inr (.inr ⟨s.rest.lastRead, by simpa using h.symm⟩))
    | writeAt addr v =>
      simp only [takeEvent] at h
      split at h
      · rename_i off hw
        exact .inr (.inr (.inl ⟨regAt off, v, .inr ⟨addr, off, rest, hi, hw, rfl⟩, h⟩))
      · exact .inr (.inr (.inr ⟨s.rest.lastRead, by simpa using h.symm⟩))

/-! The registers of the state a step's event acts on. -/

@[simp] theorem State.rest_irqEn (s : State) : s.rest.irqEn = s.irqEn := rfl
@[simp] theorem State.rest_din (s : State) : s.rest.din = s.din := rfl
@[simp] theorem State.rest_tagLen (s : State) : s.rest.tagLen = s.tagLen := rfl
@[simp] theorem State.rest_tag (s : State) : s.rest.tag = s.tag := rfl
@[simp] theorem State.rest_mode (s : State) : s.rest.mode = s.mode := rfl
@[simp] theorem State.rest_sess (s : State) : s.rest.sess = s.sess := rfl
@[simp] theorem State.rest_k0 (s : State) : s.rest.k0 = s.k0 := rfl
@[simp] theorem State.rest_keyValid (s : State) : s.rest.keyValid = s.keyValid := rfl
@[simp] theorem State.rest_d (s : State) : s.rest.d = s.d := rfl
@[simp] theorem State.rest_digestValid (s : State) : s.rest.digestValid = s.digestValid := rfl
@[simp] theorem State.rest_dsrc (s : State) : s.rest.dsrc = s.dsrc := rfl
@[simp] theorem State.rest_resultValid (s : State) : s.rest.resultValid = s.resultValid := rfl
@[simp] theorem State.rest_matched (s : State) : s.rest.matched = s.matched := rfl
@[simp] theorem State.rest_done (s : State) : s.rest.done = s.done := rfl
@[simp] theorem State.rest_err (s : State) : s.rest.err = s.err := rfl
@[simp] theorem State.rest_errcode (s : State) : s.rest.errcode = s.errcode := rfl
@[simp] theorem State.rest_pending (s : State) : s.rest.pending = s.pending := rfl
@[simp] theorem State.rest_scratch (s : State) : s.rest.scratch = s.scratch := rfl
@[simp] theorem State.rest_lastRead (s : State) : s.rest.lastRead = s.lastRead := rfl
@[simp] theorem State.rest_freeSeq (s : State) : s.rest.freeSeq = s.freeSeq := rfl
@[simp] theorem State.rest_busy (s : State) : s.rest.busy = s.busy := rfl

/-- What is admitted does not depend on the inputs still to come. -/
theorem precheck_rest (i : Instr) (s : State) : precheck i s.rest = precheck i s := by cases i <;> rfl

/-- Everything a step can do to the state (R17): nothing but a read, a completion (R135), a reset (R330), one of the five
host writes that store (R26, R37, R39, R41, R74), a refusal (R132), or an acceptance (R134). -/
theorem step_effects {s t : State} (h : step s = .next t) :
    (∃ w, t = { s.rest with lastRead := w }) ∨
    (∃ i p, CompletesNext i s ∧ s.pending = some p ∧ t = retire (committed i p.din s.rest)) ∨
    (ResetNext s ∧ t = resetCore s.rest) ∨
    (∃ v, WritesNext .ctrl v s ∧ t = { s.rest with irqEn := v.getLsbD 0 }) ∨
    (∃ v, WritesNext .status v s ∧ t = writeStatus v s.rest) ∨
    (∃ v, WritesNext .din v s ∧ t = { s.rest with din := v }) ∨
    (∃ v, WritesNext .tagLen v s ∧ s.busy = false ∧ t = { s.rest with tagLen := v }) ∨
    (∃ i v, WritesNext (.tag i) v s ∧ s.busy = false ∧ t = { s.rest with tag := s.tag.set i v }) ∨
    (∃ e v, (WritesNext .cmd v s ∨ WritesNext .tagLen v s ∨ ∃ i, WritesNext (.tag i) v s) ∧
      t = raiseError e s.rest ∧ e ≠ .none ∧ e ≠ .padInvariant) ∨
    (∃ i, AcceptsNext i s ∧ WellFormed i ∧ t = accept (encode i) s.rest) := by
  rcases step_cases h with ⟨he, h⟩ | ⟨hr, rfl⟩ | ⟨r, v, hw, h⟩ | ⟨w, rfl⟩
  · rcases engineTurn_cases h with ⟨_, rfl⟩ | ⟨p, i, hp, hd, rfl⟩
    · exact .inl ⟨s.lastRead, rfl⟩
    · exact .inr (.inl ⟨i, p, ⟨he, p, hp, hd⟩, hp, rfl⟩)
  · exact .inr (.inr (.inl ⟨hr, rfl⟩))
  · rcases writeReg_cases h with ⟨rfl, rfl⟩ | ⟨rfl, rfl⟩ | ⟨rfl, hc⟩ | ⟨rfl, rfl⟩ | ⟨rfl, hb, rfl⟩ |
      ⟨i, rfl, hb, rfl⟩ | ⟨hr, hb, rfl⟩ | rfl
    · exact .inr (.inr (.inr (.inl ⟨v, hw, rfl⟩)))
    · exact .inr (.inr (.inr (.inr (.inl ⟨v, hw, rfl⟩))))
    · rcases commandWrite_cases hc with ⟨e, rfl, _, h1, h2⟩ | ⟨hb, i, hd, ha, rfl⟩
      · exact .inr (.inr (.inr (.inr (.inr (.inr (.inr (.inr (.inl ⟨e, v, .inl hw, rfl, h1, h2⟩))))))))
      · exact .inr (.inr (.inr (.inr (.inr (.inr (.inr (.inr (.inr
          ⟨i, ⟨v, hw, hb, hd, precheck_rest i s ▸ ha⟩, wellFormed_of_decode hd, rfl⟩))))))))
    · exact .inr (.inr (.inr (.inr (.inr (.inl ⟨v, hw, rfl⟩)))))
    · exact .inr (.inr (.inr (.inr (.inr (.inr (.inl ⟨v, hw, hb, rfl⟩))))))
    · exact .inr (.inr (.inr (.inr (.inr (.inr (.inr (.inl ⟨i, v, hw, hb, rfl⟩)))))))
    · refine .inr (.inr (.inr (.inr (.inr (.inr (.inr (.inr (.inl ⟨.busy, v, ?_, rfl, by simp, by simp⟩))))))))
      rcases hr with rfl | ⟨i, rfl⟩
      · exact .inr (.inl hw)
      · exact .inr (.inr ⟨i, hw⟩)
    · exact .inl ⟨s.lastRead, rfl⟩
  · exact .inl ⟨w, rfl⟩

end Sys2Proof.Machine
end

