-- ==== Sys2Proof/Laws/Runs.lean ====
section
/-! SUPPORT. Runs of the machine over the host's sequences of events: one step of a run, and how runs compose. -/

namespace Sys2Proof.Machine

/-- A run's first step, where it gives a next state. -/
theorem run_succ_of_next {n : Nat} {s t : State} (h : step s = .next t) :
    Host.Core.run core (n + 1) s = Host.Core.run core n t := by
  have g : ∀ (M : Host.Core) (x y : M.State), M.step x = .next y → M.run (n + 1) x = M.run n y := by
    intro M x y hx; simp [Host.Core.run, hx]
  exact g core s t h

/-- The events of `es` take the core from `s` to `t`, whatever comes after them. -/
def Runs (es : List Event) (s t : State) : Prop :=
  ∀ (n : Nat) (rest : List Event),
    Host.Core.run core (es.length + n) { s with inputs := es ++ rest } = Host.Core.run core n { t with inputs := rest }

/-- No event, no change. -/
theorem Runs.nil (s : State) : Runs [] s s := fun n rest => by
  simp only [List.length_nil, Nat.zero_add, List.nil_append]

/-- Runs compose. -/
theorem Runs.append {a b : List Event} {s t u : State} (h1 : Runs a s t) (h2 : Runs b t u) : Runs (a ++ b) s u :=
  fun n rest => by
    have e1 := h1 (b.length + n) (b ++ rest)
    rw [List.length_append, List.append_assoc, Nat.add_assoc]
    exact e1.trans (h2 n rest)

/-- One event. -/
theorem Runs.one {e : Event} {s t : State}
    (h : ∀ rest, takeEvent e { s with inputs := rest } = .next { t with inputs := rest }) : Runs [e] s t :=
  fun n rest => by
    have hs : step { s with inputs := [e] ++ rest } = .next { t with inputs := rest } := h rest
    rw [List.length_singleton, Nat.add_comm]
    exact run_succ_of_next hs

/-- A whole run, from a state whose inputs are just these events. -/
theorem Runs.finish {es : List Event} {s t : State} (h : Runs es s t) (hi : s.inputs = es) :
    Host.Core.run core es.length s = .next { t with inputs := [] } := by
  have e : s = { s with inputs := es ++ [] } := by cases s; simp_all
  have := h 0 []
  rw [e]
  exact this

/-- A host read changes only what the host has read (R72). -/
theorem Runs.read (off : BitVec 8) (s : State) :
    Runs [.read off] s { s with lastRead := some (readWindow off { s with inputs := [] }) } :=
  Runs.one fun rest => by
    have e : readWindow off { s with inputs := rest } = readWindow off { s with inputs := [] } := by
      unfold readWindow; cases regAt off <;> rfl
    rw [takeEvent, busRead, e]

end Sys2Proof.Machine
end

