-- ==== Sys2Proof/Laws/Session.lean ====
section
/-! SUPPORT. The session invariant of R221: a session start establishes it, absorbing keeps it, and the hardware padder
ends it with the chain over the padded string (R171). -/

namespace Sys2Proof.Machine

@[simp] theorem bcntOf_zero : bcntOf 0 = 0 := rfl

theorem bcntOf_le (n : Nat) : bcntOf n ≤ 64 := by unfold bcntOf; split <;> omega

/-- `BCNT` after one byte more. -/
theorem bcntOf_succ (n : Nat) : bcntOf (n + 1) = if bcntOf n = 64 then 1 else bcntOf n + 1 := by
  unfold bcntOf
  by_cases h : n = 0
  · simp [h]
  · simp only [h, if_false, Nat.add_sub_cancel, Nat.add_one_ne_zero]
    split <;> omega

/-- The whole blocks before the buffer. -/
theorem bcntOf_blocks (n : Nat) : bcntOf n ≤ n ∧ 64 ∣ n - bcntOf n := by
  unfold bcntOf; split <;> omega

/-- A started session has absorbed nothing (R223, R253). -/
theorem start_represents : Represents Session.start [] where
  fits := by simp
  nbytes := by simp
  bcnt := by simp
  buf := by simp
  h := by simp

/-- A session started with a block has absorbed its 64 bytes (R256, R257). -/
theorem startWithBlock_represents (b : Bytes64) : Represents (Session.startWithBlock b) b.toList where
  fits := by simp
  nbytes := by simp
  bcnt := by simp [bcntOf]
  buf := by simp [toBytes64_of_toList]
  h := by simp

/-- A represented session, split at its buffer. -/
theorem Represents.split {x : Session} {str : List Byte} (h : Represents x str) :
    ∃ whole part : List Byte, str = whole ++ part ∧ 64 ∣ whole.length ∧ part.length = x.bcnt ∧
      x.buf = toBytes64 part ∧ x.h = chain (parse whole) := by
  have hb := bcntOf_blocks str.length
  refine ⟨str.take (str.length - x.bcnt), str.drop (str.length - x.bcnt), (List.take_append_drop _ _).symm, ?_, ?_,
    h.buf, h.h⟩
  · rw [List.length_take, Nat.min_eq_left (by omega), h.bcnt]; exact hb.2
  · rw [List.length_drop, h.bcnt]; omega

/-- The other way: whole blocks on the chain and the rest in the buffer. -/
theorem represents_of_split {x : Session} {whole part : List Byte} (hf : (whole ++ part).length ≤ 2 ^ 61 - 1)
    (hn : x.nbytes.toNat = (whole ++ part).length) (hb : x.bcnt = bcntOf (whole ++ part).length)
    (hp : part.length = x.bcnt) (hbuf : x.buf = toBytes64 part) (hh : x.h = chain (parse whole)) :
    Represents x (whole ++ part) where
  fits := hf
  nbytes := hn
  bcnt := hb
  buf := by simp [← hp, hbuf]
  h := by simp [← hp, hh]

/-- The held full block is compressed where there is one; what is left fits in the buffer with a byte to spare. -/
theorem Represents.flush {x : Session} {str : List Byte} (h : Represents x str) :
    ∃ whole part : List Byte, str = whole ++ part ∧ 64 ∣ whole.length ∧ part.length = x.flushFull.bcnt ∧
      part.length < 64 ∧ x.flushFull.buf = toBytes64 part ∧ x.flushFull.h = chain (parse whole) := by
  obtain ⟨whole, part, rfl, hw, hp, hbuf, hh⟩ := h.split
  by_cases hc : x.bcnt = 64
  · refine ⟨whole ++ part, [], by simp, ?_, ?_, by simp, ?_, ?_⟩
    · rw [List.length_append, hp, hc]; omega
    · simp [Session.flushFull, hc]
    · simp [Session.flushFull, hc]
    · simp only [Session.flushFull, hc, if_true, compressBuf_h]
      rw [chain_parse_block hw (by omega), hh, hbuf]
  · have : x.bcnt ≤ 64 := h.bcnt ▸ bcntOf_le _
    exact ⟨whole, part, rfl, hw, by simp [Session.flushFull, hc, hp], by omega,
      by simp [Session.flushFull, hc, hbuf], by simp [Session.flushFull, hc, hh]⟩

/-- `Absorb(b)` appends one byte (R221, R222). -/
theorem Represents.absorb {x : Session} {str : List Byte} (b : Byte) (h : Represents x str)
    (hf : str.length + 1 ≤ 2 ^ 61 - 1) : Represents (x.absorb b) (str ++ [b]) := by
  have hb : (x.absorb b).bcnt = bcntOf (str.length + 1) := by
    rw [bcntOf_succ, ← h.bcnt]
    simp only [Session.absorb, putByte_bcnt, Session.flushFull]
    split <;> simp
  have hn : (x.absorb b).nbytes.toNat = str.length + 1 := by
    rw [absorb_nbytes, BitVec.toNat_add, h.nbytes]; simp; omega
  obtain ⟨whole, part, rfl, hw, hp, hlt, hbuf, hh⟩ := h.flush
  rw [List.append_assoc]
  apply represents_of_split
  · simp at hf ⊢; omega
  · simp at hn ⊢; omega
  · simp at hb ⊢; rw [hb]; congr 1
  · simp only [List.length_append, List.length_cons, List.length_nil, Session.absorb, putByte_bcnt]; omega
  · simp only [Session.absorb, putByte_buf, hbuf, ← hp, toBytes64_snoc]
  · simp only [Session.absorb, putByte_h, hh]

/-- A run of `Absorb` appends its bytes (R221, R224). -/
theorem Represents.absorbAll {str : List Byte} (bs : List Byte) {x : Session} (h : Represents x str)
    (hf : str.length + bs.length ≤ 2 ^ 61 - 1) : Represents (x.absorbAll bs) (str ++ bs) := by
  induction bs generalizing x str with
  | nil => simpa using h
  | cons b rest ih =>
    simp only [List.length_cons] at hf
    rw [absorbAll_cons, List.append_cons]
    exact ih (h.absorb b (by omega)) (by simp; omega)

/-- A buffer of zeros past its bytes, with the length field in its last 8 (R170). -/
theorem lengthField_row {part : List Byte} (v : BitVec 64) (h : part.length ≤ 56) :
    writeBytes (zeroRange (toBytes64 part) part.length 56) 56 (be64bytes v) =
      toBytes64 (part ++ zeros (56 - part.length) ++ be64bytes v) := by
  apply Vector.ext; intro i hi
  have hl : (part ++ zeros (56 - part.length)).length = 56 := by simp; omega
  rw [toBytes64_getElem _ _ hi]
  simp only [writeBytes, Vector.getElem_ofFn]
  by_cases h56 : 56 ≤ i
  · have hb : i - 56 < (be64bytes v).length := by simp; omega
    rw [if_pos h56, List.getD_append_right _ _ _ _ (by omega), hl, List.getD_eq_getElem _ _ hb,
      List.getD_eq_getElem _ _ hb]
  · rw [if_neg h56, List.getD_append _ _ _ _ (by omega), getD_append_zeros]
    simp only [zeroRange, Fin.getElem_fin, Vector.getElem_ofFn, toBytes64_getElem]
    split
    · rw [List.getD_eq_default _ _ (by omega)]
    · rfl

/-- Zeroing past the bytes of a row changes nothing. -/
theorem zeroRange_tail (part : List Byte) : zeroRange (toBytes64 part) part.length 64 = toBytes64 part := by
  apply Vector.ext; intro i hi
  simp only [zeroRange, Fin.getElem_fin, Vector.getElem_ofFn, toBytes64_getElem]
  split
  · rw [List.getD_eq_default _ _ (by omega)]
  · rfl

/-- `Finalise` ends a represented session with the chain over the byte form of the padded string (R170, R171). -/
theorem Represents.finalise {x : Session} {str : List Byte} (h : Represents x str) :
    x.finalise = some (chain (parse (padByteForm str))) := by
  obtain ⟨whole, part, hs, hw, hp, hlt, hbuf, hh⟩ := h.flush
  have hbuf1 : (x.flushFull.putByte 0x80#8).buf = toBytes64 (part ++ [0x80#8]) := by
    rw [putByte_buf, hbuf, ← hp, toBytes64_snoc]
  have hcnt1 : (x.flushFull.putByte 0x80#8).bcnt = (part ++ [0x80#8]).length := by simp [hp]
  have hmod : str.length % 64 = part.length := by
    obtain ⟨q, hq⟩ := hw
    rw [hs, List.length_append, hq]; omega
  rw [finalise_eq, Option.some_inj]
  have hn : x.padMark.nbytes = x.nbytes := by
    unfold Session.padMark; dsimp only; split <;> simp
  simp only [Session.padLength, hn, h.nbytes]
  rw [padByteForm]
  by_cases hc : part.length + 1 > 56
  · have hm : x.padMark = { x.flushFull.putByte 0x80#8 with
        buf := zeroRange (x.flushFull.putByte 0x80#8).buf (x.flushFull.putByte 0x80#8).bcnt 64 }.compressBuf := by
      unfold Session.padMark; dsimp only; rw [if_pos]; rw [hcnt1]; simpa using hc
    have hz : padZeroBytes str.length = (64 - (part.length + 1)) + 56 := by unfold padZeroBytes; omega
    rw [hm]
    simp only [compressBuf_h, compressBuf_buf, compressBuf_bcnt, putByte_h, hh, hbuf1, hcnt1, zeroRange_tail]
    rw [← toBytes64_nil, show (0 : Nat) = ([] : List Byte).length from rfl, lengthField_row _ (by simp)]
    have hl : (part ++ [0x80#8] ++ zeros (64 - (part.length + 1))).length = 64 := by simp; omega
    have e : str ++ [0x80#8] ++ zeros (padZeroBytes str.length) ++ be64bytes (BitVec.ofNat 64 (8 * str.length)) =
        (whole ++ (part ++ [0x80#8] ++ zeros (64 - (part.length + 1)))) ++
          (zeros 56 ++ be64bytes (BitVec.ofNat 64 (8 * str.length))) := by
      rw [hz, hs]; simp only [zeros, List.replicate_add, List.append_assoc]
    have hd : 64 ∣ (whole ++ (part ++ [0x80#8] ++ zeros (64 - (part.length + 1)))).length := by
      rw [List.length_append, hl]; omega
    rw [e, chain_parse_block hd (by simp), chain_parse_block hw hl, toBytes64_append_zeros]
    simp
  · have hm : x.padMark = x.flushFull.putByte 0x80#8 := by
      unfold Session.padMark; dsimp only; rw [if_neg]; rw [hcnt1]; simpa using hc
    have hz : padZeroBytes str.length = 56 - (part ++ [0x80#8]).length := by
      unfold padZeroBytes; simp; omega
    rw [hm]
    simp only [putByte_h, hh, hbuf1, hcnt1]
    have e : str ++ [0x80#8] ++ zeros (padZeroBytes str.length) ++ be64bytes (BitVec.ofNat 64 (8 * str.length)) =
        whole ++ (part ++ [0x80#8] ++ zeros (56 - (part ++ [0x80#8]).length) ++
          be64bytes (BitVec.ofNat 64 (8 * str.length))) := by
      rw [hz, hs]; simp only [List.append_assoc]
    rw [lengthField_row _ (by simp; omega), e, chain_parse_block hw (by simp; omega)]

end Sys2Proof.Machine
end

