-- ==== Sys2Proof/Tests/Slice0.lean ====
section
/-! SUPPORT. The model's own tests: each expected value is the spec's (the vector or the rule is named), and a witness for
every statement that has hypotheses. -/

namespace Sys2Proof.Tests
open Sys2Proof Sys2Proof.Machine

/-! ### Helpers -/

/-- One field of the state an outcome goes on in. -/
def after {α : Type} (o : Outcome) (f : State → α) : Option α :=
  match o with
  | .next s => some (f s)
  | .fault _ => none
  | .refused _ => none

/-- What a host reads at an offset after a step. -/
def readsAfter (o : Outcome) (off : BitVec 8) : Option Word := after o (readWindow off)

/-- `s` with command `i` in flight, its `DIN` latched. -/
def flying (i : Instr) (din : Word) (s : State) : State := { s with pending := some { cmd := encode i, din := din } }

/-- `s` with one input to come. -/
def given (e : Event) (s : State) : State := { s with inputs := [e] }

/-- A session in a mode that has absorbed a string. -/
def session (m : Mode) (str : List Byte) : State := { State.reset with mode := m, sess := Session.start.absorbAll str }

/-- "abc". -/
def abc : List Byte := [0x61#8, 0x62#8, 0x63#8]

/-- The digest words of "abc" (V5). -/
def abcDigest : Words8 :=
  #v[0xba7816bf#32, 0x8f01cfea#32, 0x414140de#32, 0x5dae2223#32, 0xb00361a3#32, 0x96177a9c#32, 0xb410ff61#32, 0xf20015ad#32]

/-- The inner digest of V3. -/
def hiThereInner : Words8 :=
  #v[0x3c01475f#32, 0xd66cffbf#32, 0x0bc4cf41#32, 0x84d3cd6c#32, 0x0e3f58d7#32, 0x53bcf67f#32, 0x4c345a43#32, 0x6447d013#32]

/-- The tag of V3. -/
def hiThereTag : Words8 :=
  #v[0x198a607e#32, 0xb44bfbc6#32, 0x9903a0f1#32, 0xcf2bbdc5#32, 0xba0aa3f3#32, 0xd9ae3c1c#32, 0x7a3b1696#32, 0xa0b68cf7#32]

/-- `K0` of V3: 32 bytes of 0x0b, then zeros. -/
def hiThereK0 : Bytes64 := toBytes64 (rep 0x0b#8 32)

/-- A state that holds V3's tag and is given it back (V30). -/
def tagHeld : State :=
  { State.reset with d := hiThereTag, digestValid := true, dsrc := .tag, tag := hiThereTag, tagLen := 32 }

/-- The inner digest of V3 with its key, before `HMAC_OUTER`. -/
def innerHeld : State :=
  { State.reset with k0 := hiThereK0, keyValid := true, d := hiThereInner, digestValid := true, dsrc := .inner }

/-! ### Well-formed terms (R102, R109): the ill-formed ones are refused, and so by `exec` -/

theorem test_push0_ill_formed : ¬ WellFormed (.push 0) := by decide
theorem test_push5_ill_formed : ¬ WellFormed (.push 5) := by decide
theorem test_push4_well_formed : WellFormed (.push 4) := by decide
theorem test_push5_refused : exec (.push 5) State.reset = .refused .noEncoding := by rfl

/-! ### Decoding: words written out bit by bit from R100 to R104 (`RSVD` 26 bits, `NBM1` 2 bits, `OPC` 4 bits) -/

theorem test_decode_hashStart : decode 0b00000000000000000000000000_00_0001#32 = .ok .hashStart := by decide
theorem test_decode_keyStart : decode 0b00000000000000000000000000_00_0010#32 = .ok .keyStart := by decide
theorem test_decode_hmacInnerStart : decode 0b00000000000000000000000000_00_0011#32 = .ok .hmacInnerStart := by decide
theorem test_decode_push1 : decode 0b00000000000000000000000000_00_0100#32 = .ok (.push 1) := by decide
theorem test_decode_push2 : decode 0b00000000000000000000000000_01_0100#32 = .ok (.push 2) := by decide
theorem test_decode_push3 : decode 0b00000000000000000000000000_10_0100#32 = .ok (.push 3) := by decide
theorem test_decode_push4 : decode 0b00000000000000000000000000_11_0100#32 = .ok (.push 4) := by decide
theorem test_decode_finish : decode 0b00000000000000000000000000_00_0101#32 = .ok .finish := by decide
theorem test_decode_keyFinish : decode 0b00000000000000000000000000_00_0110#32 = .ok .keyFinish := by decide
theorem test_decode_hmacOuter : decode 0b00000000000000000000000000_00_0111#32 = .ok .hmacOuter := by decide
theorem test_decode_verify : decode 0b00000000000000000000000000_00_1000#32 = .ok .verify := by decide
theorem test_decode_clear : decode 0b00000000000000000000000000_00_1111#32 = .ok .clear := by decide

/-- V32's illegal words. -/
theorem test_decode_illegal :
    [0x00000000#32, 0x00000009#32, 0x0000000A#32, 0x0000000E#32, 0x00000015#32, 0x0000001F#32, 0x00000040#32, 0x00000044#32,
      0x80000001#32].all (fun v => match decode v with | .ok _ => false | .error _ => true) = true := by decide

theorem test_table_word : decodeTableWord 32 0x34 = some (.push 4) := by decide
theorem test_table_word_illegal : decodeTableWord 32 0x44 = none := by decide
theorem test_fetch_word : after (step (State.reset.withFetchWord 32 0xF)) (·.pending) = some (some ⟨0xF#32, 0#32⟩) := by
  decide
theorem test_fetch_word_refused : readsAfter (step (State.reset.withFetchWord 32 0x34)) 0x0C#8 = some 0x304#32 := by decide

/-! ### Word functions, padder, parser, compression: V6 to V18 -/

theorem test_rotr : rotr 1#32 1 = 0x80000000#32 ∧ rotr 0x80000000#32 31 = 1#32 := by decide
theorem test_sigma_ones : smallSigma0 0xffffffff#32 = 0x1fffffff#32 := by decide
theorem test_sigmas : smallSigma0 0x6a09e667#32 = 0xba0cf582#32 ∧ smallSigma1 0x6a09e667#32 = 0xcfe5da3c#32 ∧
    bigSigma0 0x6a09e667#32 = 0xce20b47e#32 ∧ bigSigma1 0x6a09e667#32 = 0x55b65510#32 := by decide
theorem test_ch : ch 0x510e527f#32 0x9b05688c#32 0x1f83d9ab#32 = 0x1f85c98c#32 := by decide
theorem test_maj : maj 0x6a09e667#32 0xbb67ae85#32 0x3c6ef372#32 = 0x3a6fe667#32 := by decide
theorem test_pad_counts : [0, 1, 3, 55, 56, 57, 63, 64, 65, 119, 120, 128].map padZeroBytes =
    [55, 54, 52, 0, 63, 62, 56, 55, 54, 0, 63, 55] := by decide
theorem test_pad_bits : [0, 440, 448, 504, 512, 960].map padZeroBits = [447, 7, 511, 455, 447, 511] := by decide
/-- V14. -/
theorem test_pad_abc : parse (pad abc) =
    [#v[0x61626380#32, 0, 0, 0, 0, 0, 0, 0, 0, 0, 0, 0, 0, 0, 0, 0x18#32]] := by decide +kernel
/-- V16. -/
theorem test_schedule : let w := schedule #v[0x61626380#32, 0, 0, 0, 0, 0, 0, 0, 0, 0, 0, 0, 0, 0, 0, 0x18#32]
    [w[16]?, w[17]?, w[18]?, w[19]?, w[63]?] =
      [some 0x61626380#32, some 0x000f0000#32, some 0x7da86405#32, some 0x600003c6#32, some 0x12b1edeb#32] := by
  decide +kernel
/-- V17, after round 0. -/
theorem test_round0 : (Vars.load iv).round 0x428a2f98#32 0x61626380#32 =
    ⟨0x5d6aebcd#32, 0x6a09e667#32, 0xbb67ae85#32, 0x3c6ef372#32, 0xfa2a4622#32, 0x510e527f#32, 0x9b05688c#32,
      0x1f83d9ab#32⟩ := by decide +kernel
/-- V2. -/
theorem test_digest_empty : digestState [] =
    #v[0xe3b0c442#32, 0x98fc1c14#32, 0x9afbf4c8#32, 0x996fb924#32, 0x27ae41e4#32, 0x649b934c#32, 0xa495991b#32,
      0x7852b855#32] := by decide +kernel
/-- V12: the compression of the first of two padded blocks. -/
theorem test_compress_a56 :
    compress iv (parseBlock (toBytes64 (rep 0x61#8 56 ++ [0x80#8]))) =
      #v[0x97539b85#32, 0x1c7ee50b#32, 0x0b226ec5#32, 0x4b1f3dbb#32, 0xe4f116c6#32, 0xe49b2dd0#32, 0x31444d1e#32,
        0x25354f3a#32] := by decide +kernel

/-! ### One step of each command, at the spec's own examples -/

/-- V5: the acceptance of `HASH_START` from reset. -/
theorem test_hashStart_accepted : readsAfter (step (given (wr 0x10 1) State.reset)) 0x0C#8 = some 0x00000001#32 := by decide
/-- R223's example. -/
theorem test_hashStart_completes : readsAfter (step (flying .hashStart 0 State.reset)) 0x0C#8 = some 0x00010002#32 := by
  decide
/-- R253's example. -/
theorem test_keyStart_completes : readsAfter (step (flying .keyStart 0 State.reset)) 0x0C#8 = some 0x00020002#32 := by decide
/-- R256's example: the inner key, and `STATUS`. -/
theorem test_innerStart_block : after (step (flying .hmacInnerStart 0 innerHeld)) (·.sess.buf.toList) =
    some (rep 0x3d#8 32 ++ rep 0x36#8 32) := by decide +kernel
theorem test_innerStart_status : readsAfter (step (flying .hmacInnerStart 0 innerHeld)) 0x0C#8 = some 0x00030012#32 := by
  decide
/-- R224's example: the latched `DIN`, its low byte ignored. -/
theorem test_push3_absorbs : after (step (flying (.push 3) 0x61626300#32 (session .hash [])))
    (fun s => (s.sess.bcnt, s.sess.nbytes, s.sess.buf.toList.take 4)) = some (3, 3#61, abc ++ [0#8]) := by decide +kernel
/-- V21: `BCNT` 61 and `PUSH 4` give one compression and `BCNT` 1. -/
theorem test_push4_wraps : after (step (flying (.push 4) 0x61616161#32 (session .hash (rep 0x61#8 61))))
    (fun s => (s.sess.bcnt, decide (s.sess.h = iv))) = some (1, false) := by decide +kernel
/-- R225's example, V5. -/
theorem test_finish_abc : after (step (flying .finish 0 (session .hash abc))) (·.d) = some abcDigest := by decide +kernel
theorem test_finish_status : readsAfter (step (flying .finish 0 (session .hash abc))) 0x0C#8 = some 0x0000100A#32 := by
  decide +kernel
/-- R255's example, and V24's row of a 65-byte key (the head of its digest). -/
theorem test_keyFinish_short : after (step (flying .keyFinish 0 (session .key (rep 0x0b#8 32))))
    (fun s => (decide (s.k0 = hiThereK0), readWindow 0x0C#8 s)) = some (true, 0x00000012#32) := by decide +kernel
theorem test_keyFinish_long : after (step (flying .keyFinish 0 (session .key (rep 0x61#8 65))))
    (fun s => (s.k0.toList.take 4, s.k0.toList.drop 32)) = some ([0x63#8, 0x53#8, 0x61#8, 0xc4#8], zeros 32) := by
  decide +kernel
/-- R257's example, V3. -/
theorem test_hmacOuter_tag : after (step (flying .hmacOuter 0 innerHeld)) (·.d) = some hiThereTag := by decide +kernel
theorem test_hmacOuter_status : readsAfter (step (flying .hmacOuter 0 innerHeld)) 0x0C#8 = some 0x0000300A#32 := by
  decide +kernel
/-- R282's example, V30: a match, and a tag that differs in its last bit. -/
theorem test_verify_match : readsAfter (step (flying .verify 0 tagHeld)) 0x0C#8 = some 0x0000306A#32 := by decide +kernel
theorem test_verify_mismatch :
    readsAfter (step (flying .verify 0 { tagHeld with tag := hiThereTag.set 7 0xa0b68cf6#32 })) 0x0C#8 =
      some 0x0000302A#32 := by decide +kernel
/-- R139's example, V37. -/
theorem test_clear_completes :
    after (step (flying .clear 0 { session .hash abc with err := true, errcode := .illegalCmd, irqEn := true }))
      (fun s => (readWindow 0x0C#8 s, readWindow 0x18#8 s, s.irqEn, s.irq)) =
    some (0x00000002#32, 0#32, true, true) := by decide +kernel

/-! ### The bus: V33 to V36 -/

/-- V34: the first error is kept, and the last row's write clears it. -/
theorem test_sticky_error :
    readsAfter (step (given (wr 0x10 0) { State.reset with err := true, errcode := .state })) 0x0C#8 = some 0x304#32 := by
  decide
theorem test_clear_error :
    readsAfter (step (given (wr 0x0C 0xFFFFFFFF#32) { State.reset with err := true, errcode := .illegalCmd })) 0x0C#8 =
      some 0#32 := by decide
/-- V35. -/
theorem test_busy_refuses : readsAfter (step (given (wr 0x10 5) (flying .hashStart 0 State.reset))) 0x0C#8 = some 0x205#32 := by
  decide
theorem test_busy_error_survives :
    readsAfter (step (flying .hashStart 0 { State.reset with err := true, errcode := .busy })) 0x0C#8 = some 0x00010206#32 := by
  decide
/-- V33: `BUSY` before ILLEGAL_CMD, ILLEGAL_CMD before STATE, STATE before LENGTH. -/
theorem test_priority :
    after (step (given (wr 0x10 0) (flying .clear 0 State.reset))) (·.errcode) = some .busy ∧
    after (step (given (wr 0x10 0x15) State.reset)) (·.errcode) = some .illegalCmd ∧
    after (step (given (wr 0x10 0x34) { State.reset with sess := { Session.reset with nbytes := -1 } })) (·.errcode) =
      some .state := by decide
/-- V36. -/
theorem test_reads : [0x00#8, 0x04#8, 0x10#8, 0x24#8, 0x3C#8, 0x80#8, 0xFC#8].map (readWindow · State.reset) =
    [0x53323536#32, 1#32, 0#32, 0#32, 0#32, 0#32, 0#32] := by decide
theorem test_ctrl_write : readsAfter (step (given (wr 0x08 0xFFFFFFFF#32) State.reset)) 0x08#8 = some 1#32 := by decide
/-- V13: the byte counter at its limit. -/
theorem test_length_limit :
    let s := { State.reset with mode := .hash, sess := { Session.start with nbytes := -2 } }
    after (step (given (wr 0x10 0x14) s)) (·.errcode) = some .length ∧
    after (step (given (wr 0x10 0x04) s)) (·.pending.isSome) = some true ∧
    after (step (flying (.push 1) 0 s)) (fun t => (readWindow 0x1C#8 t, readWindow 0x18#8 t)) =
      some (0x1FFFFFFF#32, 0xFFFFFFFF#32) := by decide
/-- V38. -/
theorem test_reset_drops : after (step (given .reset (flying .finish 0 { tagHeld with irqEn := true })))
    (fun s => (readWindow 0x0C#8 s, s.irq, s.pending.isSome, readWindow 0x40#8 s, readWindow 0x60#8 s)) =
    some (0#32, false, false, 0#32, 0#32) := by decide

/-! ### Witnesses: for every statement with hypotheses, states and operands that meet them, clause by clause -/

/-- "abc" as a session holds it. -/
theorem represents_abc : Represents (Session.start.absorbAll abc) abc := by
  simpa using start_represents.absorbAll abc (by decide)

/-- `HASH_START` given to the core after reset. -/
def started : State := given (wr 0x10 1) State.reset

theorem witness_MnemonicsEncode : (0 = 0 ∨ 5 ≤ 0) ∧ (5 = 0 ∨ 5 ≤ 5) := by decide
theorem witness_DecodeOfEncode : [Instr.hashStart, .keyStart, .hmacInnerStart, .push 1, .push 4, .finish, .keyFinish, .hmacOuter,
    .verify, .clear].all wellFormed = true := by decide
theorem witness_EncodeOfDecode : decode 0x34#32 = .ok (.push 4) ∧ decode 0x0F#32 = .ok .clear := by decide
theorem witness_IllegalWordsRefused : State.reset.busy = false ∧ ∃ r, decode 0x15#32 = .error r := ⟨rfl, .operandBits, rfl⟩
theorem witness_IllFormedPushStops : (0 = 0 ∨ 5 ≤ 0) ∧ (5 = 0 ∨ 5 ≤ 5) := by decide
theorem witness_StepRunsDecodedCommand :
    (started.inputs = [.write 0x10#8 1#32] ∧ started.busy = false ∧ decode 1#32 = .ok .hashStart) ∧
    (∃ p, (flying .finish 0 State.reset).inputs = [] ∧ (flying .finish 0 State.reset).pending = some p ∧
      decode p.cmd = .ok .finish) ∧
    (∃ p, (given .engine (flying .finish 0 State.reset)).inputs = [.engine] ∧
      (given .engine (flying .finish 0 State.reset)).pending = some p ∧ decode p.cmd = .ok .finish) ∧
    (given (.read 0xFF#8) State.reset).inputs = [.read 0xFF#8] ∧
    (given .engine State.reset).pending = none ∧ State.reset.inputs = [] := by
  refine ⟨by decide, ⟨_, rfl, rfl, by decide⟩, ⟨_, rfl, rfl, by decide⟩, rfl, rfl, rfl⟩
theorem witness_CommandWriteFollowsRule :
    checkRule 0#32 (flying .clear 0 State.reset) = some .busy ∧ checkRule 0#32 State.reset = some .illegalCmd ∧
    checkRule 0x34#32 State.reset = some .state ∧
    checkRule 0x34#32 { session .hash [] with sess := { Session.start with nbytes := -1 } } = some .length ∧
    checkRule 0x0F#32 State.reset = none := by decide
theorem witness_AcceptanceChangesOnly :
    WellFormed .clear ∧ State.reset.busy = false ∧ precheck .clear State.reset = none ∧
    ∃ t, exec .clear State.reset = .next t := ⟨rfl, rfl, rfl, _, rfl⟩
/-- Each row of R137 has a state in which it is accepted and one in which it is refused. -/
theorem witness_StatePreconditions :
    State.reset.busy = false ∧ State.reset.mode = .idle ∧ (session .key []).busy = false ∧ (session .key []).mode = .key ∧
    (session .hash []).busy = false ∧ (session .hash []).mode = .hash ∧
    innerHeld.busy = false ∧ (innerHeld.mode = .idle ∧ innerHeld.keyValid = true ∧ innerHeld.digestValid = true ∧
      innerHeld.dsrc = .inner) ∧
    tagHeld.busy = false ∧ (tagHeld.mode = .idle ∧ tagHeld.digestValid = true ∧ tagHeld.dsrc = .tag) := by decide
/-- At the limit: one byte more is taken, two are refused. -/
theorem witness_PushLengthLimit :
    let s : State := { session .hash [] with sess := { Session.start with nbytes := -2 } }
    s.busy = false ∧ s.mode ≠ .idle ∧ ¬ s.sess.nbytes.toNat + 1 > 2 ^ 61 - 1 ∧ s.sess.nbytes.toNat + 2 > 2 ^ 61 - 1 := by
  decide
theorem witness_WritesWhileBusy : (flying .verify 0 tagHeld).busy = true := by decide
theorem witness_HostRegisterWrites : State.reset.busy = false ∧ (7 : Fin 8) ≠ 0 := by decide
theorem witness_FirstErrorKept : State.reset.err = false ∧ ({ State.reset with err := true } : State).err = true := by decide
theorem witness_ReadOnlyAndReservedIgnored :
    [0x00#8, 0x07#8, 0x18#8, 0x1F#8, 0x40#8, 0x5F#8].all (fun off =>
      let o := (off &&& 0xFC#8).toNat
      o == 0 || o == 4 || o == 0x18 || o == 0x1C || (decide (0x40 ≤ o) && decide (o ≤ 0x5C))) = true ∧
    [0x24#8, 0x3F#8, 0x80#8, 0xFF#8].all (fun off =>
      let o := (off &&& 0xFC#8).toNat
      (decide (0x24 ≤ o) && decide (o ≤ 0x3C)) || decide (0x80 ≤ o)) = true := by decide
/-- Each clause of the map, at the last byte of its offset; the clauses' offsets are apart. -/
theorem witness_WindowReadMap :
    [0x03#8, 0x07#8, 0x0B#8, 0x0F#8, 0x13#8, 0x17#8, 0x1B#8, 0x1F#8, 0x23#8, 0x43#8, 0x5F#8, 0x63#8, 0x7F#8, 0x27#8, 0x3F#8,
      0x83#8, 0xFF#8].map (fun off => (off &&& 0xFC#8).toNat) =
    [0x00, 0x04, 0x08, 0x0C, 0x10, 0x14, 0x18, 0x1C, 0x20, 0x40 + 4 * 0, 0x40 + 4 * 7, 0x60 + 4 * 0, 0x60 + 4 * 7, 0x24, 0x3C,
      0x80, 0xFC] := by decide
theorem witness_DigestReadGate : tagHeld.digestValid = true ∧ (tagHeld.dsrc = .hash ∨ tagHeld.dsrc = .tag) ∧
    ¬ (innerHeld.digestValid = true ∧ (innerHeld.dsrc = .hash ∨ innerHeld.dsrc = .tag)) := by decide
theorem witness_IrqLevel : ∃ t, busWrite 0x08#8 1#32 { State.reset with done := true } = .next t ∧
    ({ State.reset with done := true } : State).done = true ∧ ∃ u, busWrite 0x0C#8 6#32 t = .next u :=
  ⟨_, rfl, rfl, _, rfl⟩
theorem witness_WindowDecode :
    (Config.base ≤ Config.base ∧ Config.base < Config.base + 256) ∧
    (Config.base ≤ Config.base + 255 ∧ Config.base + 255 < Config.base + 256) ∧
    (Config.base + 256 < Config.base ∨ Config.base + 256 ≤ Config.base + 256) := by omega
theorem witness_ResetRestores : (given .reset (flying .finish 0 tagHeld)).inputs = .reset :: [] := rfl
theorem witness_ClearAgainstReset : (flying .clear 0 tagHeld).pending = some ⟨0x0F#32, 0⟩ := by decide
theorem witness_HashStartOpensSession : (flying .hashStart 0 State.reset).pending = some ⟨0x01#32, 0⟩ := by decide
theorem witness_KeyStartOpensSession : (flying .keyStart 0 State.reset).pending = some ⟨0x02#32, 0⟩ := by decide
theorem witness_InnerStartOpensSession : (flying .hmacInnerStart 0 innerHeld).pending = some ⟨0x03#32, 0⟩ := by decide
theorem witness_PushAbsorbs :
    (flying (.push 4) 0x64656667#32 (session .hash abc)).pending = some ⟨0x34#32, 0x64656667#32⟩ ∧
    Represents (flying (.push 4) 0x64656667#32 (session .hash abc)).sess abc ∧ abc.length + 4 ≤ 2 ^ 61 - 1 :=
  ⟨by decide, represents_abc, by decide⟩
theorem witness_FinishGivesDigest :
    (flying .finish 0 (session .hash abc)).pending = some ⟨0x05#32, 0⟩ ∧ (flying .finish 0 (session .hash abc)).mode = .hash ∧
    Represents (flying .finish 0 (session .hash abc)).sess abc ∧ (flying .finish 0 (session .inner abc)).mode = .inner :=
  ⟨by decide, rfl, represents_abc, rfl⟩
theorem witness_KeyFinishNormalises :
    (flying .keyFinish 0 (session .key abc)).pending = some ⟨0x06#32, 0⟩ ∧
    Represents (flying .keyFinish 0 (session .key abc)).sess abc := ⟨by decide, represents_abc⟩
theorem witness_OuterConsumesKey : (flying .hmacOuter 0 innerHeld).pending = some ⟨0x07#32, 0⟩ := by decide
theorem witness_VerifySetsVerdict : (flying .verify 0 tagHeld).pending = some ⟨0x08#32, 0⟩ := by decide
theorem witness_ClearReturnsToReset : (flying .clear 0 tagHeld).pending = some ⟨0x0F#32, 0⟩ := by decide
theorem witness_AcceptedCommandCompletes :
    let s : State := { tagHeld with inputs := .write 0x10#8 (encode .verify) :: (List.replicate 2 (.read 0x0C#8) ++ .engine :: []) }
    WellFormed .verify ∧ s.busy = false ∧ precheck .verify s = none ∧ 2 > 0 := ⟨rfl, rfl, rfl, by decide⟩
theorem witness_HostWritesSurviveCompletion :
    (Instr.verify ≠ .clear) ∧ (flying .verify 0 tagHeld).pending = some ⟨0x08#32, 0⟩ ∧
    ∃ t, exec .verify (flying .verify 0 tagHeld) = .next t := ⟨by decide, by decide, _, rfl⟩
theorem witness_DinWriteDuringClearIsLost :
    let s : State := { flying .clear 0 tagHeld with inputs := .write 0x14#8 5#32 :: .engine :: [] }
    s.pending = some ⟨encode .clear, 0⟩ := rfl
/-- A step that sets each flag and one that clears it. -/
theorem witness_FlagWriters :
    (started.busy = false ∧ after (step started) (·.busy) = some true) ∧
    ((flying .clear 0 State.reset).busy = true ∧ after (step (flying .clear 0 State.reset)) (·.busy) = some false) ∧
    after (step (flying .clear 0 State.reset)) (·.done) = some true ∧
    after (step (given (wr 0x0C 2) { State.reset with done := true })) (·.done) = some false ∧
    after (step (given (wr 0x10 0) State.reset)) (·.err) = some true ∧
    after (step (given (wr 0x0C 4) { State.reset with err := true, errcode := .state })) (fun s => (s.err, s.errcode)) =
      some (false, .none) ∧
    after (step (flying .hashStart 0 tagHeld)) (fun s => (s.digestValid, s.dsrc)) = some (false, .none) ∧
    after (step (flying .keyFinish 0 (session .key abc))) (·.keyValid) = some true ∧
    after (step (flying .keyStart 0 innerHeld)) (·.keyValid) = some false ∧
    after (step (given (wr 0x10 8) { tagHeld with resultValid := true, matched := true })) (fun s => (s.resultValid, s.matched)) =
      some (false, false) := by decide +kernel
theorem witness_FlagWriters_verdict : after (step (flying .verify 0 tagHeld)) (fun s => (s.resultValid, s.matched)) =
    some (true, true) := by decide +kernel
/-- A step that changes each register. -/
theorem witness_StoreWriters :
    after (step (given (wr 0x08 1) State.reset)) (·.irqEn) = some true ∧
    after (step (given (wr 0x14 5) State.reset)) (·.din) = some 5#32 ∧
    after (step (given (wr 0x20 32) State.reset)) (·.tagLen) = some 32#32 ∧
    after (step (given (wr 0x7C 9) State.reset)) (·.tag[7]) = some 9#32 ∧
    after (step (flying .keyStart 0 innerHeld)) (·.k0) = some zeroBytes ∧
    after (step (flying .hashStart 0 tagHeld)) (fun s => (s.d, s.mode)) = some (zeroWords, .hash) ∧
    after (step (flying (.push 2) 0 (session .hash []))) (·.sess.nbytes) = some 2#61 := by decide +kernel
theorem inv_started : Inv started := by
  constructor <;> simp [started, given, State.reset, Session.reset, State.busy]
theorem faithful_started : Faithful started := by constructor <;> simp [started, given, State.reset]
theorem witness_StepNeverStops : Inv started := inv_started
theorem witness_StepKeepsInv : Inv started ∧ ∃ t, step started = .next t := ⟨inv_started, _, rfl⟩
theorem witness_StepKeepsFaithful : Inv started ∧ Faithful started ∧ ∃ t, step started = .next t :=
  ⟨inv_started, faithful_started, _, rfl⟩
/-- The invariant holds in a state with a command in flight too. -/
theorem inv_in_flight : Inv (flying .hashStart 0 State.reset) := by
  constructor <;> first
    | exact fun p hp => ⟨.hashStart, by cases hp; decide, rfl⟩
    | simp [flying, State.reset, Session.reset]
theorem witness_PadByteForm : (rep 0x61#8 56).length ≤ 2 ^ 61 - 1 := by decide
theorem witness_PadBlocksAndLengthField : (rep 0x61#8 55).length % 64 ≤ 55 ∧ 56 ≤ (rep 0x61#8 56).length % 64 := by decide
theorem witness_PadZeroBitsSmallest : (0 + 1 + 447) % 512 = 448 := by decide
theorem witness_ParseIsParseBlocks : (zeros 128).length = 64 * 2 ∧ 1 < 2 := by decide +kernel
theorem witness_PushedWordIsBlockWord :
    (Session.start.bcnt = 4 * (0 : Fin 16).val) ∧ ((Session.startWithBlock zeroBytes).bcnt = 64 ∧ (0 : Fin 16) = 0) ∧
    ((Session.start.absorbAll (zeros 60)).bcnt = 4 * (15 : Fin 16).val) := by decide +kernel
theorem witness_ScheduleRecurrence : (16 ≤ 16 ∧ 16 ≤ 63) ∧ (16 ≤ 63 ∧ 63 ≤ 63) := by decide
/-- V21's boundary: `BCNT` 64 with one byte more, and 60 with four. -/
theorem witness_CompressionCounts : (1 ≤ 4 ∧ 4 ≤ 4 ∧ (Session.startWithBlock zeroBytes).bcnt ≤ 64) ∧
    (rep 0x61#8 64).length ≤ 2 ^ 61 - 1 ∧ compressionCount (.push 4) { State.reset with sess := Session.startWithBlock zeroBytes } = 1 ∧
    compressionCount (.push 4) (session .hash (zeros 60)) = 0 := by decide +kernel
theorem witness_LatencyIgnoresData : State.reset.sess.bcnt = tagHeld.sess.bcnt ∧ State.reset.sess.nbytes = tagHeld.sess.nbytes ∧
    Instr.push 1 ≠ .verify := by decide
theorem witness_CtEqExactlyEqual : (rep 0x61#8 32).length = 32 ∧ (zeros 32).length = 32 := by decide
theorem witness_NormKeyCases : (rep 0x61#8 64).length ≤ 64 ∧ (rep 0x61#8 64).length = 64 ∧ 64 < (rep 0x61#8 65).length := by decide +kernel

/-- A run of `WAIT` with one poll. -/
def waitOnce : List Event := [.read 0x0C#8, .engine, .read 0x0C#8]

theorem isWait_once : IsWait waitOnce := ⟨1, rfl⟩

/-- A run of `CMDW`. -/
def cmdw (i : Instr) : List Event := wr 0x10 (encode i) :: waitOnce

theorem isCmdW (i : Instr) : IsCmdW i (cmdw i) := ⟨waitOnce, isWait_once, rfl⟩

/-- A run of `PUSHSTR` of "abc". -/
def pushAbc : List Event := wr 0x14 0x61626300#32 :: cmdw (.push 3)

theorem isPushStr_abc : IsPushStr abc pushAbc := ⟨cmdw (.push 3), isCmdW _, rfl⟩

theorem isHash_abc : IsHash abc (cmdw .hashStart ++ pushAbc ++ cmdw .finish) :=
  ⟨_, _, _, isCmdW _, isPushStr_abc, isCmdW _, rfl⟩

/-- A run of `HMAC "abc", "abc"`. -/
def hmacAbc : List Event :=
  (cmdw .keyStart ++ pushAbc ++ cmdw .keyFinish) ++ cmdw .hmacInnerStart ++ pushAbc ++ cmdw .finish ++ cmdw .hmacOuter

theorem isHmac_abc : IsHmac abc abc hmacAbc :=
  ⟨_, _, _, _, _, ⟨_, _, _, isCmdW _, isPushStr_abc, isCmdW _, rfl⟩, isCmdW _, isPushStr_abc, isCmdW _, isCmdW _, rfl⟩

theorem witness_HashSequenceGivesDigest :
    let s : State := { State.reset with inputs := cmdw .hashStart ++ pushAbc ++ cmdw .finish }
    abc.length ≤ 2 ^ 61 - 1 ∧ s.busy = false ∧ s.mode = .idle ∧ IsHash abc s.inputs :=
  ⟨by decide, rfl, rfl, isHash_abc⟩
theorem witness_HmacSequenceGivesTag :
    let s : State := { State.reset with inputs := hmacAbc }
    abc.length ≤ 2 ^ 61 - 1 ∧ abc.length ≤ 2 ^ 61 - 65 ∧ s.busy = false ∧ s.mode = .idle ∧ IsHmac abc abc s.inputs :=
  ⟨by decide, by decide, rfl, rfl, isHmac_abc⟩
theorem witness_VerifySequenceGivesVerdict :
    let s : State := { State.reset with inputs := hmacAbc ++ writeTagWords abc ++ [writeTagLen abc] ++ cmdw .verify }
    abc.length ≤ 2 ^ 61 - 1 ∧ abc.length ≤ 2 ^ 61 - 65 ∧ s.busy = false ∧ s.mode = .idle ∧
      IsVerifyHmac abc abc abc s.inputs :=
  ⟨by decide, by decide, rfl, rfl, _, _, isHmac_abc, isCmdW _, rfl⟩

/-- Two states with different keys and inner digests that the host cannot tell apart. -/
theorem indistinguishable_keys :
    Indistinguishable innerHeld { innerHeld with k0 := zeroBytes, d := zeroWords } ∧ innerHeld.k0 ≠ zeroBytes ∧
      innerHeld.d ≠ zeroWords := by
  refine ⟨?_, by decide +kernel, by decide +kernel⟩
  constructor <;> first | rfl | (intro h; exact absurd h (by decide))

theorem witness_HiddenStateUnreadable : Indistinguishable innerHeld { innerHeld with k0 := zeroBytes, d := zeroWords } :=
  indistinguishable_keys.1
theorem witness_OnlyResultsLeaveTheCore :
    Inv started ∧ Indistinguishable started { started with k0 := toBytes64 abc } ∧ ∃ t, step started = .next t := by
  refine ⟨inv_started, ?_, _, rfl⟩
  constructor <;> first | rfl | (intro _; rfl)

end Sys2Proof.Tests
end

section
/-! What a step runs: the next input, or the engine's turn where none is left; and what the engine's turn and a `CMD`
write do with a word that decodes. -/

namespace Sys2Proof.Machine

/-! A step takes the next input, or the engine's turn (R17, R84). -/

theorem step_of_inputs_nil {s : State} (h : s.inputs = []) : step s = engineTurn s := by
  simp [step, h]

theorem step_of_inputs_cons {s : State} {e : Event} {rest : List Event} (h : s.inputs = e :: rest) :
    step s = takeEvent e { s with inputs := rest } := by
  simp [step, h]

/-! The engine's turn (R135). -/

theorem engineTurn_of_idle {s : State} (h : s.pending = none) : engineTurn s = .next s := by
  simp [engineTurn, h]

theorem engineTurn_of_decode {s : State} {p : Pending} {i : Instr} (hp : s.pending = some p)
    (hd : decode p.cmd = .ok i) : engineTurn s = exec i s := by
  simp [engineTurn, hp, hd]

/-! A write to `CMD` (R130). -/

theorem commandWrite_of_decode {s : State} {v : Word} {i : Instr} (hb : s.busy = false)
    (hd : decode v = .ok i) : commandWrite v s = exec i s := by
  simp [commandWrite, hb, hd]

/-- `CMD` is the register at offset 0x10 (R73). -/
theorem busWrite_cmd (v : Word) (s : State) : busWrite 0x10#8 v s = commandWrite v s := rfl

/-- What a register reads does not depend on the inputs still to come (R72). -/
@[simp] theorem readWindow_inputs (off : BitVec 8) (s : State) (es : List Event) :
    readWindow off { s with inputs := es } = readWindow off s := by
  unfold readWindow; cases regAt off <;> rfl

theorem takeEvent_read (off : BitVec 8) (s : State) (es : List Event) :
    takeEvent (.read off) { s with inputs := es } =
      .next { s with inputs := es, lastRead := some (readWindow off s) } := by
  simp [takeEvent, busRead]

/-- Settles O7: a step is `takeEvent` of its next input or the engine's turn, and either one runs the command that its
word decodes to. -/
theorem stepRunsDecodedCommand : Obligations.StepRunsDecodedCommand := by
  intro s i
  refine ⟨?cmdWrite, ?lastTurn, ?turn, ?read, ?write, ?idleTurn, ?idleLastTurn⟩
  case cmdWrite =>
    intro v rest hi hb hd
    calc step s = busWrite 0x10#8 v { s with inputs := rest } := step_of_inputs_cons hi
      _ = commandWrite v { s with inputs := rest } := busWrite_cmd _ _
      _ = exec i { s with inputs := rest } := commandWrite_of_decode hb hd
  case lastTurn =>
    intro p hi hp hd
    exact (step_of_inputs_nil hi).trans (engineTurn_of_decode hp hd)
  case turn =>
    intro p rest hi hp hd
    exact (step_of_inputs_cons hi).trans (engineTurn_of_decode hp hd)
  case read =>
    intro off rest hi
    exact (step_of_inputs_cons hi).trans (takeEvent_read off s rest)
  case write =>
    intro off v rest hi
    exact step_of_inputs_cons hi
  case idleTurn =>
    intro rest hi hp
    exact (step_of_inputs_cons hi).trans (engineTurn_of_idle hp)
  case idleLastTurn =>
    intro hi hp
    exact (step_of_inputs_nil hi).trans (engineTurn_of_idle hp)

end Sys2Proof.Machine
end

section
/-! What the checks of a command depend on, how the session's counters move, and that every step keeps the invariant
`Inv` between the parts of the state. -/

namespace Sys2Proof.Machine

/-- `Check` reads `MODE`, `NBYTES`, `KEY_VALID`, `DIGEST_VALID` and `DSRC` alone (R133, R137). -/
theorem precheck_congr {s t : State} (i : Instr) (hm : t.mode = s.mode) (hn : t.sess.nbytes = s.sess.nbytes)
    (hk : t.keyValid = s.keyValid) (hv : t.digestValid = s.digestValid) (hd : t.dsrc = s.dsrc) :
    precheck i t = precheck i s := by
  cases i <;> simp [precheck, preState, lengthOk, digestReadable, hm, hn, hk, hv, hd]

/-- Acceptance leaves the checks of every command as they were (R134). -/
theorem precheck_accept (i : Instr) (v : Word) (s : State) : precheck i (accept v s) = precheck i s :=
  precheck_congr i rfl rfl rfl rfl rfl

/-- An admitted command meets its row of R137. -/
theorem preState_of_admitted {i : Instr} {s : State} (h : precheck i s = none) : preState i s = true :=
  (precheck_eq_none_iff.1 h).1

/-- An admitted `PUSH` stays within the length limit (R133). -/
theorem nbytes_le_of_push_admitted {n : Nat} {s : State} (h : precheck (.push n) s = none) :
    s.sess.nbytes.toNat + n ≤ 2 ^ 61 - 1 := by
  simpa only [lengthOk, decide_eq_true_eq] using (precheck_eq_none_iff.1 h).2

/-- A `PUSH` is admitted only in an open session (R137). -/
theorem mode_ne_idle_of_push_admitted {n : Nat} {s : State} (h : precheck (.push n) s = none) : s.mode ≠ .idle := by
  intro hm
  have := preState_of_admitted h
  simp [preState, hm] at this

/-- A well-formed command is what its own word decodes to (R104, R109). -/
theorem decode_encode {i : Instr} (h : WellFormed i) : decode (encode i) = .ok i := by
  cases i with
  | hashStart => exact Laws.RoundTrip.hashStart h
  | keyStart => exact Laws.RoundTrip.keyStart h
  | hmacInnerStart => exact Laws.RoundTrip.hmacInnerStart h
  | push n => exact Laws.RoundTrip.push n h
  | finish => exact Laws.RoundTrip.finish h
  | keyFinish => exact Laws.RoundTrip.keyFinish h
  | hmacOuter => exact Laws.RoundTrip.hmacOuter h
  | verify => exact Laws.RoundTrip.verify h
  | clear => exact Laws.RoundTrip.clear h

theorem wellFormed_push_iff {n : Nat} : WellFormed (.push n) ↔ 1 ≤ n ∧ n ≤ 4 := by
  simp [WellFormed, wellFormed]

theorem pushBytes_length {n : Nat} (din : Word) (h : n ≤ 4) : (pushBytes n din).length = n := by
  simpa [pushBytes] using h

theorem absorb_bcnt (b : Byte) (x : Session) : (x.absorb b).bcnt = if x.bcnt = 64 then 1 else x.bcnt + 1 := by
  by_cases h : x.bcnt = 64 <;> simp [Session.absorb, Session.flushFull, h]

/-- `NBYTES` counts the absorbed bytes (R46), as long as it does not wrap. -/
theorem absorbAll_nbytes_toNat {x : Session} (bs : List Byte) (h : x.nbytes.toNat + bs.length < 2 ^ 61) :
    (x.absorbAll bs).nbytes.toNat = x.nbytes.toNat + bs.length := by
  induction bs generalizing x with
  | nil => simp
  | cons b rest ih =>
    have hb : (x.absorb b).nbytes.toNat = x.nbytes.toNat + 1 := by
      simp only [List.length_cons] at h
      simp only [absorb_nbytes, BitVec.toNat_add]
      simp only [BitVec.ofNat_eq_ofNat, BitVec.toNat_ofNat]; omega
    simp only [List.length_cons] at h ⊢
    rw [absorbAll_cons, ih (by omega), hb]; omega

/-- "Bytes at index `BCNT` and above hold 0" (R45), as `Inv` says it. -/
def BufTailZero (x : Session) : Prop := ∀ i : Fin 64, x.bcnt ≤ i.val → x.buf[i] = 0

theorem bufTailZero_of_zeroBytes {x : Session} (h : x.buf = zeroBytes) : BufTailZero x := fun i _ => by
  simp [h]

@[simp] theorem bufTailZero_start : BufTailZero Session.start := bufTailZero_of_zeroBytes rfl
@[simp] theorem bufTailZero_close (x : Session) : BufTailZero x.close := bufTailZero_of_zeroBytes rfl

theorem BufTailZero.flushFull {x : Session} (h : BufTailZero x) : BufTailZero x.flushFull := by
  unfold Session.flushFull
  split
  · exact bufTailZero_of_zeroBytes rfl
  · exact h

theorem BufTailZero.putByte {x : Session} (b : Byte) (h : BufTailZero x) : BufTailZero (x.putByte b) := by
  intro i hi
  simp only [putByte_bcnt] at hi
  have hne : x.bcnt ≠ i.val := by omega
  have := h i (by omega)
  simpa [Vector.getElem_setIfInBounds, hne] using this

theorem BufTailZero.absorbAll {x : Session} (bs : List Byte) (h : BufTailZero x) : BufTailZero (x.absorbAll bs) := by
  induction bs generalizing x with
  | nil => exact h
  | cons b rest ih => exact ih (x := x.absorb b) (h.flushFull.putByte b)

/-- `BCNT` goes on following `NBYTES` (R221, R222). -/
theorem absorbAll_bcnt {x : Session} (bs : List Byte) (h : x.bcnt = bcntOf x.nbytes.toNat)
    (hf : x.nbytes.toNat + bs.length < 2 ^ 61) :
    (x.absorbAll bs).bcnt = bcntOf (x.absorbAll bs).nbytes.toNat := by
  induction bs generalizing x with
  | nil => exact h
  | cons b rest ih =>
    simp only [List.length_cons] at hf
    have hb : (x.absorb b).nbytes.toNat = x.nbytes.toNat + 1 :=
      absorbAll_nbytes_toNat [b] (by simp only [List.length_singleton]; omega)
    refine ih (x := x.absorb b) ?_ (by omega)
    rw [absorb_bcnt, hb, bcntOf_succ, h]

/-! The invariant in two parts: what the session, the key and the digest are to each other, which only completions and
resets touch, and the rest. -/

/-- The clauses of `Inv` about `MODE`, the session, the key and the digest. -/
structure HeldInv (s : State) : Prop where
  dsrc : s.digestValid = false ↔ s.dsrc = .none
  noDigest : s.digestValid = false → s.d = zeroWords
  noKey : s.keyValid = false → s.k0 = zeroBytes
  idle : s.mode = .idle → s.sess.h = zeroWords ∧ s.sess.buf = zeroBytes ∧ s.sess.bcnt = 0
  bcnt : s.mode ≠ .idle → s.sess.bcnt = bcntOf s.sess.nbytes.toNat
  bufTail : BufTailZero s.sess
  session : s.mode ≠ .idle → s.digestValid = false
  keySession : s.mode = .key → s.keyValid = false
  innerSession : s.mode = .inner → s.keyValid = true ∧ 64 ≤ s.sess.nbytes.toNat
  innerDigest : s.dsrc = .inner → s.keyValid = true

theorem Inv.held {s : State} (h : Inv s) : HeldInv s :=
  ⟨h.dsrc, h.noDigest, h.noKey, h.idle, h.bcnt, h.bufTail, h.session, h.keySession, h.innerSession, h.innerDigest⟩

theorem HeldInv.of_kept {s t : State} (h : HeldInv s) (hs : SessionKept s t) (hk : KeyKept s t)
    (hr : ResultKept s t) : HeldInv t := by
  obtain ⟨hm, hs⟩ := hs
  obtain ⟨hk0, hkv⟩ := hk
  obtain ⟨hd, hdv, hds⟩ := hr
  constructor <;> simp only [hm, hs, hk0, hkv, hd, hdv, hds]
  exacts [h.dsrc, h.noDigest, h.noKey, h.idle, h.bcnt, h.bufTail, h.session, h.keySession, h.innerSession,
    h.innerDigest]

/-- The reset values meet these clauses (R55). -/
theorem heldInv_reset : HeldInv State.reset := by
  constructor <;> simp [State.reset, Session.reset, bufTailZero_of_zeroBytes]

/-- `Inv` of a state with nothing in flight. -/
theorem HeldInv.inv_of_idle {s : State} (h : HeldInv s) (hp : s.pending = none)
    (hv : s.resultValid = false → s.matched = false) (hvo : s.resultValid = true → digestReadable s = true)
    (he : s.err = false ↔ s.errcode = .none) (hpad : s.errcode ≠ .padInvariant) : Inv s where
  pending := by simp [hp]
  inFlight := by simp [State.busy, hp]
  verdict := hv
  verdictOf := hvo
  errcode := he
  noPadInvariant := hpad
  dsrc := h.dsrc
  noDigest := h.noDigest
  noKey := h.noKey
  idle := h.idle
  bcnt := h.bcnt
  bufTail := h.bufTail
  session := h.session
  keySession := h.keySession
  innerSession := h.innerSession
  innerDigest := h.innerDigest

/-- A step that keeps session, key, digest, verdict and the command in flight, sets no `DONE` and leaves `ERRCODE` with
`ERR`, keeps the invariant. -/
theorem Inv.of_kept {s t : State} (h : Inv s) (hs : SessionKept s t) (hk : KeyKept s t) (hr : ResultKept s t)
    (hv : VerdictKept s t) (hp : t.pending = s.pending) (hdone : s.done = false → t.done = false)
    (he : t.err = false ↔ t.errcode = .none) (hpad : t.errcode ≠ .padInvariant) : Inv t := by
  have hheld := h.held.of_kept hs hk hr
  obtain ⟨hm, hss⟩ := hs
  obtain ⟨-, hkv⟩ := hk
  obtain ⟨-, hdv, hds⟩ := hr
  obtain ⟨hrv, hma⟩ := hv
  have hpre (i : Instr) : precheck i t = precheck i s := precheck_congr i hm (by rw [hss]) hkv hdv hds
  exact {
    hheld with
    pending := by simpa only [hp, hpre] using h.pending
    inFlight := fun hb => by
      obtain ⟨hd, hrv'⟩ := h.inFlight (by simpa only [State.busy, hp] using hb)
      exact ⟨hdone hd, hrv.trans hrv'⟩
    verdict := by simpa only [hrv, hma] using h.verdict
    verdictOf := by simpa only [digestReadable, hrv, hdv, hds] using h.verdictOf
    errcode := he
    noPadInvariant := hpad }

/-- The registers that the host writes, and the model's own fields, are no part of the invariant. -/
theorem Inv.with_registers {s : State} (h : Inv s) (irqEn : Bool) (din tagLen : Word) (tag : Words8)
    (inputs : List Event) (lastRead : Option Word) :
    Inv { s with irqEn := irqEn, din := din, tagLen := tagLen, tag := tag, inputs := inputs, lastRead := lastRead } :=
  h.of_kept ⟨rfl, rfl⟩ ⟨rfl, rfl⟩ ⟨rfl, rfl, rfl⟩ ⟨rfl, rfl⟩ rfl id h.errcode h.noPadInvariant

theorem Inv.of_rest {s : State} (h : Inv s) : Inv s.rest :=
  h.with_registers s.irqEn s.din s.tagLen s.tag s.inputs.tail s.lastRead

/-- An error raised keeps the invariant, where it is an error of the table that the spec produces (R301, R307). -/
theorem Inv.of_raiseError {e : ErrCode} {s : State} (h : Inv s) (he : e ≠ .none) (hpad : e ≠ .padInvariant) :
    Inv (raiseError e s) := by
  have hcode : (raiseError e s).errcode ≠ .none ∧ (raiseError e s).errcode ≠ .padInvariant := by
    rw [raiseError_errcode]
    split
    · rename_i herr
      exact ⟨fun hc => by simp [h.errcode.2 hc] at herr, h.noPadInvariant⟩
    · exact ⟨he, hpad⟩
  exact h.of_kept ⟨rfl, rfl⟩ ⟨rfl, rfl⟩ ⟨rfl, rfl, rfl⟩ ⟨rfl, rfl⟩ rfl id (by simpa using hcode.1) hcode.2

/-- A `STATUS` write keeps the invariant (R74). -/
theorem Inv.of_writeStatus {s : State} (v : Word) (h : Inv s) : Inv (writeStatus v s) := by
  have hcode : ((writeStatus v s).err = false ↔ (writeStatus v s).errcode = .none) ∧
      (writeStatus v s).errcode ≠ .padInvariant := by
    rw [writeStatus_err, writeStatus_errcode]
    split
    · simp
    · exact ⟨h.errcode, h.noPadInvariant⟩
  exact h.of_kept ⟨by simp, by simp⟩ ⟨by simp, by simp⟩ ⟨by simp, by simp, by simp⟩ ⟨by simp, by simp⟩ (by simp)
    (fun hd => by simp [hd]) hcode.1 hcode.2

/-- An acceptance keeps the invariant: the word in flight is the admitted one (R134). -/
theorem Inv.of_accept {i : Instr} {s : State} (h : Inv s) (hi : WellFormed i) (ha : precheck i s = none) :
    Inv (accept (encode i) s) where
  pending := by
    intro p hp
    rw [accept_pending, Option.some_inj] at hp
    subst hp
    exact ⟨i, decode_encode hi, (precheck_accept i (encode i) s).trans ha⟩
  inFlight := fun _ => ⟨rfl, rfl⟩
  verdict := fun _ => rfl
  verdictOf := by simp
  errcode := h.errcode
  noPadInvariant := h.noPadInvariant
  dsrc := h.dsrc
  noDigest := h.noDigest
  noKey := h.noKey
  idle := h.idle
  bcnt := h.bcnt
  bufTail := h.bufTail
  session := h.session
  keySession := h.keySession
  innerSession := h.innerSession
  innerDigest := h.innerDigest

/-! ### What each completion leaves -/

/-- A completion leaves session, key and digest as the invariant has them, where the command was admitted. -/
theorem heldInv_committed {i : Instr} {s : State} (din : Word) (h : Inv s) (hi : WellFormed i)
    (ha : precheck i s = none) : HeldInv (committed i din s) := by
  have hpre := preState_of_admitted ha
  cases i with
  | hashStart =>
    constructor <;> simp [committed]
    case noKey => exact h.noKey
  | keyStart => constructor <;> simp [committed]
  | hmacInnerStart =>
    obtain ⟨hm, hk⟩ : s.mode = .idle ∧ s.keyValid = true := by simpa [preState] using hpre
    constructor <;> simp [committed, hk, bcntOf, BufTailZero]
  | push n =>
    obtain ⟨h1, h4⟩ := wellFormed_push_iff.1 hi
    have hm := mode_ne_idle_of_push_admitted ha
    have hlen := pushBytes_length din h4
    have hfit : s.sess.nbytes.toNat + (pushBytes n din).length < 2 ^ 61 := by
      have := nbytes_le_of_push_admitted ha
      omega
    have hn : (s.sess.absorbAll (pushBytes n din)).nbytes.toNat = s.sess.nbytes.toNat + n := by
      rw [absorbAll_nbytes_toNat _ hfit, hlen]
    exact {
      dsrc := h.dsrc
      noDigest := h.noDigest
      noKey := h.noKey
      idle := fun hc => absurd hc hm
      bcnt := fun _ => absorbAll_bcnt _ (h.bcnt hm) hfit
      bufTail := h.held.bufTail.absorbAll _
      session := h.session
      keySession := h.keySession
      innerSession := fun hc => by
        obtain ⟨hk, h64⟩ := h.innerSession hc
        exact ⟨hk, show 64 ≤ (s.sess.absorbAll (pushBytes n din)).nbytes.toNat by omega⟩
      innerDigest := h.innerDigest }
  | finish =>
    have hm : s.mode = .hash ∨ s.mode = .inner := by simpa [preState] using hpre
    constructor <;> simp [committed]
    case dsrc => split <;> simp
    case noKey => exact h.noKey
    case innerDigest => exact fun hne => (h.innerSession (hm.resolve_left hne)).1
  | keyFinish =>
    have hm : s.mode = .key := by simpa [preState] using hpre
    constructor <;> simp [committed]
    case dsrc => exact h.dsrc
    case noDigest => exact h.noDigest
  | hmacOuter =>
    obtain ⟨hm, -⟩ : s.mode = .idle ∧ s.keyValid = true ∧ s.digestValid = true ∧ s.dsrc = .inner := by
      simpa [preState, and_assoc] using hpre
    constructor <;> simp [committed, hm]
  | verify => exact h.held.of_kept ⟨rfl, rfl⟩ ⟨rfl, rfl⟩ ⟨rfl, rfl, rfl⟩
  | clear => exact heldInv_reset.of_kept ⟨rfl, rfl⟩ ⟨rfl, rfl⟩ ⟨rfl, rfl, rfl⟩

/-- No verdict stands when a completion starts (R134), so only `VERIFY` leaves one, and about a digest that the host may
read (R137). -/
theorem verdict_committed {i : Instr} {s : State} (din : Word) (hr : s.resultValid = false) (hm : s.matched = false)
    (ha : precheck i s = none) :
    ((committed i din s).resultValid = false → (committed i din s).matched = false) ∧
    ((committed i din s).resultValid = true → digestReadable (committed i din s) = true) := by
  cases i with
  | verify =>
    have hpre : s.mode = .idle ∧ digestReadable s = true := by simpa [preState] using preState_of_admitted ha
    exact ⟨fun hc => by simp [committed] at hc, fun _ => hpre.2⟩
  | _ => simp [committed, State.reset, hr, hm]

/-- A completion leaves `ERR` and `ERRCODE` alone, or at their reset values (R136, R139). -/
theorem error_committed (i : Instr) (din : Word) (s : State) :
    ErrorKept s (committed i din s) ∨ ErrorKept State.reset (committed i din s) := by
  cases i with
  | clear => exact .inr ⟨rfl, rfl⟩
  | _ => exact .inl ⟨rfl, rfl⟩

/-- A completion keeps the invariant (R135). -/
theorem Inv.of_completion {i : Instr} {s : State} (din : Word) (h : Inv s) (hi : WellFormed i)
    (hb : s.busy = true) (ha : precheck i s = none) : Inv (retire (committed i din s)) := by
  obtain ⟨-, hr⟩ := h.inFlight hb
  obtain ⟨hv, hvo⟩ := verdict_committed din hr (h.verdict hr) ha
  have hheld : HeldInv (retire (committed i din s)) :=
    (heldInv_committed din h hi ha).of_kept ⟨rfl, rfl⟩ ⟨rfl, rfl⟩ ⟨rfl, rfl, rfl⟩
  have herr : ((committed i din s).err = false ↔ (committed i din s).errcode = .none) ∧
      (committed i din s).errcode ≠ .padInvariant := by
    rcases error_committed i din s with ⟨he, hc⟩ | ⟨he, hc⟩ <;> rw [he, hc]
    · exact ⟨h.errcode, h.noPadInvariant⟩
    · simp [State.reset]
  exact hheld.inv_of_idle rfl hv hvo herr.1 herr.2

/-- A reset gives the invariant, from any state (R55, R330). -/
theorem inv_resetCore (s : State) : Inv (resetCore s) :=
  (heldInv_reset.of_kept ⟨rfl, rfl⟩ ⟨rfl, rfl⟩ ⟨rfl, rfl, rfl⟩ : HeldInv (resetCore s)).inv_of_idle rfl (fun _ => rfl)
    (by simp) (by simp) (by simp)

/-- The word in flight on the engine's turn is an admitted command (R133). -/
theorem Inv.admitted_of_completesNext {i : Instr} {s : State} (h : Inv s) (hc : CompletesNext i s) :
    WellFormed i ∧ s.busy = true ∧ precheck i s = none := by
  obtain ⟨-, p, hp, hd⟩ := hc
  obtain ⟨j, hj, ha⟩ := h.pending p hp
  obtain rfl : j = i := by simpa [hd] using hj.symm
  exact ⟨wellFormed_of_decode hd, (busy_eq_true_iff s).2 ⟨p, hp⟩, ha⟩

/-- Settles O42: by what a step can do (`step_effects`), the invariant holds after each of its effects. -/
theorem stepKeepsInv : Obligations.StepKeepsInv := by
  intro s t h hst
  have hrest := h.of_rest
  rcases step_effects hst with ⟨w, rfl⟩ | ⟨i, p, hc, -, rfl⟩ | ⟨-, rfl⟩ | ⟨v, -, rfl⟩ | ⟨v, -, rfl⟩ | ⟨v, -, rfl⟩ |
    ⟨v, -, -, rfl⟩ | ⟨i, v, -, -, rfl⟩ | ⟨e, v, -, rfl, he, hpad⟩ | ⟨i, ⟨-, -, -, -, ha⟩, hi, rfl⟩
  · exact h.with_registers s.irqEn s.din s.tagLen s.tag s.inputs.tail w
  · obtain ⟨hi, hb, ha⟩ := h.admitted_of_completesNext hc
    exact hrest.of_completion p.din hi hb ((precheck_rest i s).trans ha)
  · exact inv_resetCore _
  · exact h.with_registers (v.getLsbD 0) s.din s.tagLen s.tag s.inputs.tail s.lastRead
  · exact hrest.of_writeStatus v
  · exact h.with_registers s.irqEn v s.tagLen s.tag s.inputs.tail s.lastRead
  · exact h.with_registers s.irqEn s.din v s.tag s.inputs.tail s.lastRead
  · exact h.with_registers s.irqEn s.din s.tagLen (s.tag.set i v) s.inputs.tail s.lastRead
  · exact hrest.of_raiseError he hpad
  · exact hrest.of_accept hi ((precheck_rest i s).trans ha)

end Sys2Proof.Machine
end

section
/-! The padder's byte form is the bit-level padding, and every step keeps what the state holds equal to what the
algorithm defines. -/

namespace Sys2Proof.Machine

/-! ### The padded string, byte by byte (R160, R162) -/

@[simp] theorem bitsMsbFirst_length (n v : Nat) : (bitsMsbFirst n v).length = n := by simp [bitsMsbFirst]

@[simp] theorem bitString_nil : bitString [] = [] := rfl

@[simp] theorem bitString_cons (b : Byte) (s : List Byte) :
    bitString (b :: s) = bitsMsbFirst 8 b.toNat ++ bitString s := rfl

theorem bitString_append (a b : List Byte) : bitString (a ++ b) = bitString a ++ bitString b := by
  simp [bitString]

theorem bitString_length (s : List Byte) : (bitString s).length = 8 * s.length := by
  induction s with
  | nil => rfl
  | cons b rest ih => simp [ih]; omega

theorem bitString_zeros (n : Nat) : bitString (zeros n) = List.replicate (8 * n) false := by
  induction n with
  | zero => rfl
  | succ n ih =>
    have hz : bitsMsbFirst 8 (0#8).toNat = List.replicate 8 false := by decide
    rw [zeros, List.replicate_succ, bitString_cons, ← zeros, ih, hz, ← List.replicate_add]
    congr 1; omega

/-- A byte is packed from its own bits. -/
theorem packByte_bits (b : Byte) : packByte (bitsMsbFirst 8 b.toNat) = b := by
  revert b; decide +kernel

/-- The bytes of a string are packed from its bits. -/
theorem packBytes_bitString (s : List Byte) : packBytes s.length (bitString s) = s := by
  induction s with
  | nil => rfl
  | cons b rest ih =>
    rw [List.length_cons, bitString_cons, packBytes, List.take_left' (by simp), List.drop_left' (by simp),
      packByte_bits, ih]

/-- The bits of one byte of a 64-bit number. -/
theorem bitsMsbFirst_extractLsb' (v k : Nat) (h : k + 8 ≤ 64) :
    bitsMsbFirst 8 ((BitVec.ofNat 64 v).extractLsb' k 8).toNat = (List.range 8).map fun i => v.testBit (k + (7 - i)) := by
  refine List.map_congr_left fun i hi => ?_
  have hi := List.mem_range.1 hi
  have h7 : 8 - 1 - i < 8 := by omega
  have hk : k + (8 - 1 - i) < 64 := by omega
  rw [BitVec.testBit_toNat, BitVec.getLsbD_extractLsb', BitVec.getLsbD_ofNat]
  simp [h7, hk]

/-- The 64-bit big-endian number, bit by bit and byte by byte (R14, R160). -/
theorem bitString_be64bytes (v : Nat) : bitString (be64bytes (BitVec.ofNat 64 v)) = bitsMsbFirst 64 v := by
  rw [be64bytes]
  simp (disch := omega) only [bitString_cons, bitString_nil, bitsMsbFirst_extractLsb']
  rfl

/-- The bits of the padding are the bits of its byte form (R162). -/
theorem padBits_eq_bitString (s : List Byte) : padBits s = bitString (padByteForm s) := by
  have hk : padZeroBits (8 * s.length) = 7 + 8 * padZeroBytes s.length := by
    unfold padZeroBits padZeroBytes; omega
  have h80 : bitsMsbFirst 8 (0x80#8).toNat = [true] ++ List.replicate 7 false := by decide
  simp only [padByteForm, bitString_append, bitString_cons, bitString_nil, h80, bitString_zeros, bitString_be64bytes,
    padBits, hk, List.replicate_add, List.append_assoc, List.append_nil]

/-- `Pad(s)` is its byte form (R162). -/
theorem pad_eq_padByteForm (s : List Byte) : pad s = padByteForm s := by
  have hl : (padBits s).length / 8 = (padByteForm s).length := by
    rw [padBits_eq_bitString, bitString_length]; omega
  rw [pad, hl, padBits_eq_bitString, packBytes_bitString]

/-- The padder ends a represented session with `Digest`'s hash state (R227). -/
theorem Represents.finalise_digest {x : Session} {str : List Byte} (h : Represents x str) :
    ser (compress x.padMark.padLength.h (parseBlock x.padMark.padLength.buf)) = digest str := by
  have hf := h.finalise
  rw [finalise_eq, Option.some_inj] at hf
  rw [hf, digest, digestState, pad_eq_padByteForm]

/-! ### The key, normalised (R250, R255) -/

/-- A session that holds at most 64 bytes holds them in its buffer. -/
theorem Represents.buf_of_short {x : Session} {str : List Byte} (h : Represents x str) (hs : str.length ≤ 64) :
    x.buf = toBytes64 str := by
  have hb : x.bcnt = str.length := by
    rw [h.bcnt, bcntOf]; split <;> omega
  rw [h.buf, hb, Nat.sub_self, List.drop_zero]

/-- What `KEY_FINISH` stores is the absorbed key normalised (R255). -/
theorem Represents.storedKey {s : State} {key : List Byte} (din : Word) (h : Represents s.sess key) :
    (committed .keyFinish din s).k0 = normKey key := by
  simp only [committed, storeKey_k0, h.nbytes, h.finalise_digest, toBytes64_append_zeros, normKey]
  split
  · rw [if_neg (by omega), h.buf_of_short (by omega)]
  · rw [if_pos (by omega)]

/-! ### What each completion leaves -/

@[simp] theorem xorRep_length (k : Bytes64) (b : Byte) : (xorRep k b).toList.length = 64 := by simp

/-- What `FINISH` commits is the digest of what the session absorbed (R227). -/
theorem Represents.finishDigest {s : State} {str : List Byte} (din : Word) (h : Represents s.sess str) :
    ser (committed .finish din s).d = digest str := h.finalise_digest

/-- The outer session holds the outer key and the inner digest (R257). -/
theorem outerSession_represents (k0 : Bytes64) (inner : Words8) :
    Represents (outerSession k0 inner) ((xorRep k0 0x5c#8).toList ++ ser inner) :=
  (startWithBlock_represents _).absorbAll _ (by simp)

/-- `HMAC_OUTER` commits the digest of the outer key and the inner digest (R257). -/
theorem ser_committed_hmacOuter (din : Word) (s : State) :
    ser (committed .hmacOuter din s).d = digest ((xorRep s.k0 0x5c#8).toList ++ ser s.d) :=
  (outerSession_represents s.k0 s.d).finalise_digest

theorem Faithful.of_kept {s t : State} (h : Faithful s) (hs : SessionKept s t) (hk : KeyKept s t)
    (hr : ResultKept s t) : Faithful t := by
  obtain ⟨hm, hs⟩ := hs
  obtain ⟨hk0, hkv⟩ := hk
  obtain ⟨hd, -, hds⟩ := hr
  constructor <;> simp only [hm, hs, hk0, hkv, hd, hds]
  exacts [h.session, h.innerSession, h.key, h.hashDigest, h.innerDigest, h.tag]

/-- The reset values hold nothing (R55). -/
theorem faithful_reset : Faithful State.reset := by
  constructor <;> simp [State.reset]

/-- A completion keeps what the state holds, where the command was admitted. -/
theorem Faithful.of_committed {i : Instr} {s : State} (din : Word) (h : Faithful s) (hinv : Inv s) (hi : WellFormed i)
    (ha : precheck i s = none) : Faithful (committed i din s) := by
  have hpre := preState_of_admitted ha
  cases i with
  | hashStart =>
    constructor <;> simp [committed]
    case session => exact ⟨[], start_represents⟩
    case key => exact h.key
  | keyStart =>
    constructor <;> simp [committed]
    case session => exact ⟨[], start_represents⟩
  | hmacInnerStart =>
    constructor <;> simp [committed]
    case innerSession => exact ⟨[], by simpa using startWithBlock_represents (xorRep s.k0 0x36#8)⟩
    case key => exact h.key
  | push n =>
    have hlen := pushBytes_length din (wellFormed_push_iff.1 hi).2
    have hfit := nbytes_le_of_push_admitted ha
    have happ {str : List Byte} (hr : Represents s.sess str) :
        Represents (s.sess.absorbAll (pushBytes n din)) (str ++ pushBytes n din) :=
      hr.absorbAll _ (by rw [hlen, ← hr.nbytes]; exact hfit)
    refine ⟨fun hm => ?_, fun hm => ?_, h.key, h.hashDigest, h.innerDigest, h.tag⟩
    · obtain ⟨str, hr⟩ := h.session hm
      exact ⟨_, happ hr⟩
    · obtain ⟨m, hr⟩ := h.innerSession hm
      exact ⟨m ++ pushBytes n din, List.append_assoc _ _ _ ▸ happ hr⟩
  | finish =>
    have hm : s.mode = .hash ∨ s.mode = .inner := by simpa [preState] using hpre
    rcases hm with hm | hm
    · obtain ⟨str, hr⟩ := h.session (.inl hm)
      constructor <;> simp [committed, hm]
      case key => exact h.key
      case hashDigest => exact ⟨str, hr.fits, hr.finishDigest din⟩
    · obtain ⟨m, hr⟩ := h.innerSession hm
      constructor <;> simp [committed, hm]
      case key => exact h.key
      case innerDigest =>
        have hf := hr.fits
        rw [List.length_append, xorRep_length] at hf
        exact ⟨m, by omega, hr.finishDigest din⟩
  | keyFinish =>
    have hm : s.mode = .key := by simpa [preState] using hpre
    have hds : s.dsrc = .none := hinv.dsrc.1 (hinv.session (by simp [hm]))
    obtain ⟨key, hr⟩ := h.session (.inr hm)
    constructor <;> simp [committed, hds]
    case key => exact ⟨key, hr.fits, hr.storedKey din⟩
  | hmacOuter =>
    obtain ⟨hm, hkv, -, hds⟩ : s.mode = .idle ∧ s.keyValid = true ∧ s.digestValid = true ∧ s.dsrc = .inner := by
      simpa [preState, and_assoc] using hpre
    obtain ⟨k, hk, hk0⟩ := h.key hkv
    obtain ⟨m, hl, hd⟩ := h.innerDigest hds
    have htag : ser (committed .hmacOuter din s).d = hmac k m := by
      rw [ser_committed_hmacOuter, hd, hmac, hk0]
    constructor <;> simp [committed, hm]
    case tag => exact ⟨k, hk, m, hl, htag⟩
  | verify => exact h.of_kept ⟨rfl, rfl⟩ ⟨rfl, rfl⟩ ⟨rfl, rfl, rfl⟩
  | clear => exact faithful_reset.of_kept ⟨rfl, rfl⟩ ⟨rfl, rfl⟩ ⟨rfl, rfl, rfl⟩

/-- Settles O43: only completions and a reset touch what the state holds (`step_effects`). -/
theorem stepKeepsFaithful : Obligations.StepKeepsFaithful := by
  intro s t hinv h hst
  have hrest : Faithful s.rest := h.of_kept ⟨rfl, rfl⟩ ⟨rfl, rfl⟩ ⟨rfl, rfl, rfl⟩
  rcases step_effects hst with ⟨w, rfl⟩ | ⟨i, p, hc, -, rfl⟩ | ⟨-, rfl⟩ | ⟨v, -, rfl⟩ | ⟨v, -, rfl⟩ | ⟨v, -, rfl⟩ |
    ⟨v, -, -, rfl⟩ | ⟨i, v, -, -, rfl⟩ | ⟨e, v, -, rfl, -⟩ | ⟨i, -, -, rfl⟩
  case inr.inl =>
    obtain ⟨hi, -, ha⟩ := hinv.admitted_of_completesNext hc
    exact (hrest.of_committed p.din hinv.of_rest hi ((precheck_rest i s).trans ha)).of_kept ⟨rfl, rfl⟩ ⟨rfl, rfl⟩
      ⟨rfl, rfl, rfl⟩
  case inr.inr.inl => exact faithful_reset.of_kept ⟨rfl, rfl⟩ ⟨rfl, rfl⟩ ⟨rfl, rfl, rfl⟩
  all_goals exact hrest.of_kept ⟨by simp, by simp⟩ ⟨by simp, by simp⟩ ⟨by simp, by simp, by simp⟩

end Sys2Proof.Machine
end

section
/-! Which steps can change which flag and which register, read off what a step can do (`step_effects`). The cases
follow its order: a read, a completion, a reset, a write to `CTRL`, `STATUS`, `DIN`, `TAG_LEN` or `TAG`, a refusal, an
acceptance. -/

namespace Sys2Proof.Machine

/-- A flag that a step leaves alone does not rise. -/
@[simp] theorem unchanged_not_raised (b : Bool) (P : Prop) : (b = false → b = true → P) ↔ True := by
  cases b <;> simp

/-- A flag that a step leaves alone does not fall. -/
@[simp] theorem unchanged_not_dropped (b : Bool) (P : Prop) : (b = true → b = false → P) ↔ True := by
  cases b <;> simp

/-- `BUSY` does not depend on the registers that the host writes. -/
@[simp] theorem busy_with_registers (s : State) (irqEn : Bool) (din tagLen : Word) (tag : Words8)
    (inputs : List Event) (lastRead : Option Word) :
    State.busy { s with irqEn := irqEn, din := din, tagLen := tagLen, tag := tag, inputs := inputs,
                        lastRead := lastRead } = s.busy := rfl

/-- No verdict stands while a command is in flight (R33, R134). -/
theorem Inv.matched_of_completesNext {i : Instr} {s : State} (h : Inv s) (hc : CompletesNext i s) :
    s.matched = false := by
  obtain ⟨-, hb, -⟩ := h.admitted_of_completesNext hc
  exact h.verdict (h.inFlight hb).2

/-- Settles O38: effect by effect, the flags that a step changes are those whose rule names it. Only a `VERIFY` could
drop `MATCH` by itself, and by the invariant `MATCH` is 0 when it completes. -/
theorem flagWriters : Obligations.FlagWriters := by
  intro s t hst
  rcases step_effects hst with ⟨w, rfl⟩ | ⟨i, p, hc, -, rfl⟩ | ⟨hr, rfl⟩ | ⟨v, -, rfl⟩ | ⟨v, hw, rfl⟩ | ⟨v, -, rfl⟩ |
    ⟨v, -, -, rfl⟩ | ⟨i, v, -, -, rfl⟩ | ⟨e, v, hw, rfl, -⟩ | ⟨i, hacc, -, rfl⟩
  · simp
  · have hex : ∃ i, CompletesNext i s := ⟨i, hc⟩
    cases i with
    | verify =>
      have hm : Inv s → s.matched = false := fun h => h.matched_of_completesNext hc
      simp +contextual [committed, hc, hex, hm]
    | clear => simp [committed, State.reset, hc, hex]
    | _ => simp [committed, hc, hex]
  · simp [hr]
  · simp
  · have hex (n : Nat) (hn : n < 32) (h : v[n] = true) : ∃ v, WritesNext .status v s ∧ v[n] = true := ⟨v, hw, h⟩
    cases h1 : v[1] <;> cases h2 : v[2] <;> simp [h1, h2, hex 1, hex 2]
  · simp
  · simp
  · simp
  · have hex : ∃ v, WritesNext .cmd v s ∨ WritesNext .tagLen v s ∨ ∃ i, WritesNext (.tag i) v s := ⟨v, hw⟩
    simp [hex]
  · have hex : ∃ i, AcceptsNext i s := ⟨i, hacc⟩
    simp [hex]

/-- Settles O39: effect by effect, the registers that a step changes are those whose rules name it. -/
theorem storeWriters : Obligations.StoreWriters := by
  intro s t hst
  rcases step_effects hst with ⟨w, rfl⟩ | ⟨i, p, hc, -, rfl⟩ | ⟨hr, rfl⟩ | ⟨v, hw, rfl⟩ | ⟨v, -, rfl⟩ | ⟨v, hw, rfl⟩ |
    ⟨v, hw, hb, rfl⟩ | ⟨i, v, hw, hb, rfl⟩ | ⟨e, v, -, rfl, -⟩ | ⟨i, -, -, rfl⟩
  · simp
  · cases i with
    | push n =>
      have hex : ∃ n, CompletesNext (.push n) s := ⟨n, hc⟩
      simp [committed, hex]
    | _ => simp [committed, hc]
  · simp [hr]
  · simp [show ∃ v, WritesNext .ctrl v s from ⟨v, hw⟩]
  · simp
  · simp [show ∃ v, WritesNext .din v s from ⟨v, hw⟩]
  · simp [show ∃ v, WritesNext .tagLen v s from ⟨v, hw⟩, hb]
  · simp [show ∃ i v, WritesNext (.tag i) v s from ⟨i, v, hw⟩, hb]
  · simp
  · simp

end Sys2Proof.Machine
end

section
/-! What the registers read and what a write to each stores; the `STATUS` word field by field; the state after reset. -/

namespace Sys2Proof.Machine

/-! ### Which register stands at an offset (R23) -/

@[simp] theorem regAt_ctrl : regAt 0x08#8 = .ctrl := rfl
@[simp] theorem regAt_status : regAt 0x0C#8 = .status := rfl
@[simp] theorem regAt_tagLen : regAt 0x20#8 = .tagLen := rfl
@[simp] theorem regAt_digest (i : Fin 8) : regAt (BitVec.ofNat 8 (0x40 + 4 * i.val)) = .digest i := by
  revert i; decide
@[simp] theorem regAt_tag (i : Fin 8) : regAt (BitVec.ofNat 8 (0x60 + 4 * i.val)) = .tag i := by
  revert i; decide

/-- Past `TAG_LEN` a register is a `DIGEST` word, a `TAG` word, or reserved. -/
theorem regAtIndex_of_ge {k : Nat} (h : 9 ≤ k) :
    regAtIndex k = if 16 ≤ k ∧ k < 24 then .digest (Fin.ofNat 8 (k - 16))
      else if 24 ≤ k ∧ k < 32 then .tag (Fin.ofNat 8 (k - 24)) else .reserved := by
  obtain ⟨n, rfl⟩ := Nat.exists_eq_add_of_le' h
  rfl

/-- The offsets of the `DIGEST` words. -/
theorem regAt_of_digest_range {off : BitVec 8} (h : 0x40 ≤ (off &&& 0xFC#8).toNat ∧ (off &&& 0xFC#8).toNat ≤ 0x5C) :
    ∃ i, regAt off = .digest i := by
  have hk : 16 ≤ wordIndex off ∧ wordIndex off < 24 := by unfold wordIndex; omega
  exact ⟨_, (regAtIndex_of_ge (by omega)).trans (if_pos hk)⟩

/-- The reserved offsets (R42). -/
theorem regAt_of_reserved_range {off : BitVec 8}
    (h : (0x24 ≤ (off &&& 0xFC#8).toNat ∧ (off &&& 0xFC#8).toNat ≤ 0x3C) ∨ 0x80 ≤ (off &&& 0xFC#8).toNat) :
    regAt off = .reserved := by
  have hk : 9 ≤ wordIndex off ∧ (wordIndex off < 16 ∨ 32 ≤ wordIndex off) := by unfold wordIndex; omega
  rw [regAt, regAtIndex_of_ge hk.1, if_neg (by omega), if_neg (by omega)]

/-- Settles O16: the register at each such offset takes no write. -/
theorem readOnlyAndReservedIgnored : Obligations.ReadOnlyAndReservedIgnored := by
  intro off v s o
  refine ⟨fun h => ?_, fun h => ?_⟩
  · have hk {k : Nat} (ho : o = 4 * k) : regAt off = regAtIndex k := by
      rw [regAt, wordIndex, show (off &&& 0xFC#8).toNat = 4 * k from ho, Nat.mul_div_cancel_left _ (by decide)]
    rcases h with h | h | h | h | h
    · rw [busWrite, hk (k := 0) h]; rfl
    · rw [busWrite, hk (k := 1) h]; rfl
    · rw [busWrite, hk (k := 6) h]; rfl
    · rw [busWrite, hk (k := 7) h]; rfl
    · obtain ⟨i, hi⟩ := regAt_of_digest_range h
      rw [busWrite, hi]; rfl
  · have hr := regAt_of_reserved_range h
    exact ⟨by rw [busWrite, hr]; rfl, by rw [readWindow, hr]; rfl⟩

/-- Bit 0 of a word, as a word. -/
theorem setWidth_ofBool_getLsbD_zero (v : Word) : (BitVec.ofBool (v.getLsbD 0)).setWidth 32 = v &&& 1#32 := by
  ext i hi
  by_cases h : i = 0 <;> simp [h]

/-- Settles O13: each write by the register that stands at its offset. -/
theorem hostRegisterWrites : Obligations.HostRegisterWrites := by
  intro v s
  refine ⟨⟨_, rfl, rfl, rfl⟩, ⟨_, rfl, rfl, ?ctrl⟩, fun hb => ⟨{ s with tagLen := v }, ?tagLen, rfl, rfl⟩, fun hb i => ?tag⟩
  case ctrl => exact setWidth_ofBool_getLsbD_zero v
  case tagLen => simp [busWrite, writeReg, writeUnlessBusy, hb]
  case tag =>
    refine ⟨{ s with tag := s.tag.set i v }, ?_, rfl, ?_, fun j hj => ?_⟩
    · simp [busWrite, writeReg, writeUnlessBusy, hb]
    · simp [readWindow, readReg]
    · exact Vector.getElem_set_ne i.isLt j.isLt (by simpa [Fin.ext_iff] using hj.symm)

/-! ### The `STATUS` word (R27) -/

/-- A field put at bit `n` of a word is read back there. -/
theorem extractLsb'_field {w : Nat} (x : BitVec w) (n : Nat) (h : n + w ≤ 32) :
    (x.setWidth 32 <<< n).extractLsb' n w = x := by
  ext i hi
  have hin : n + i < 32 := by omega
  simp [hin, BitVec.getLsbD_eq_getElem hi]

/-- Bits apart from a field read 0. -/
theorem extractLsb'_field_apart {w : Nat} (x : BitVec w) (n m k : Nat) (h : m + k ≤ n ∨ n + w ≤ m) :
    (x.setWidth 32 <<< n).extractLsb' m k = 0 := by
  ext i hi
  have hi : m + i < n ∨ w ≤ m + i - n := by omega
  rcases hi with hi | hi <;> simp [hi, BitVec.getLsbD_of_ge]

/-- The coded fields of `STATUS` (R34, R35, R302). -/
theorem statusWord_codes (s : State) :
    (statusWord s).extractLsb' 8 4 = s.errcode.code ∧ (statusWord s).extractLsb' 12 2 = s.dsrc.code ∧
    (statusWord s).extractLsb' 16 3 = s.mode.code := by
  refine ⟨?_, ?_, ?_⟩ <;>
    simp (disch := omega) only [statusWord, flagAt, BitVec.extractLsb'_or, extractLsb'_field,
      extractLsb'_field_apart] <;>
    simp

/-- Bits that no field of `STATUS` holds (R27). -/
theorem statusWord_reserved (s : State) {m k : Nat} (h : m = 7 ∧ k = 1 ∨ m = 14 ∧ k = 2 ∨ 19 ≤ m) :
    (statusWord s).extractLsb' m k = 0 := by
  simp (disch := omega) only [statusWord, flagAt, BitVec.extractLsb'_or, extractLsb'_field_apart]
  simp

/-- Bit by bit, the flags of `STATUS`. -/
theorem statusWord_flags (s : State) :
    (statusWord s).getLsbD 0 = s.busy ∧ (statusWord s).getLsbD 1 = s.done ∧ (statusWord s).getLsbD 2 = s.err ∧
    (statusWord s).getLsbD 3 = s.digestValid ∧ (statusWord s).getLsbD 4 = s.keyValid ∧
    (statusWord s).getLsbD 5 = s.resultValid ∧ (statusWord s).getLsbD 6 = s.matched ∧
    (statusWord s).getLsbD 7 = false := by
  simp [statusWord, flagAt]

/-- Settles O18: the flags, then the three coded fields, and the reserved bits between and above them. -/
theorem statusWordLayout : Obligations.StatusWordLayout := by
  intro s
  obtain ⟨h0, h1, h2, h3, h4, h5, h6, h7⟩ := statusWord_flags s
  obtain ⟨herr, hdsrc, hmode⟩ := statusWord_codes s
  refine ⟨h0, h1, h2, h3, h4, h5, h6, h7, ?_, ?_, statusWord_reserved s (by omega), ?_,
    statusWord_reserved s (by omega)⟩
  · rw [herr]; cases s.errcode <;> rfl
  · rw [hdsrc]; cases s.dsrc <;> rfl
  · rw [hmode]; cases s.mode <;> rfl

/-- Settles O21: `irq` from the bits of `CTRL` and `STATUS`; a write of 1 to `CTRL` enables it, and one of 6 to
`STATUS` clears what it shows. -/
theorem irqLevel : Obligations.IrqLevel := by
  intro s
  refine ⟨?level, fun t ht hs => ?raise, fun t ht => ?drop⟩
  case level =>
    obtain ⟨-, hdone, herr, -⟩ := statusWord_flags s
    have hctrl : (readWindow 0x08#8 s).getLsbD 0 = s.irqEn := by simp [readWindow, readReg]
    have hstatus : readWindow 0x0C#8 s = statusWord s := rfl
    rw [hctrl, hstatus, hdone, herr]; rfl
  case raise =>
    obtain rfl : { s with irqEn := true } = t := by simpa [busWrite, writeReg] using ht
    simpa [State.irq] using hs
  case drop =>
    obtain rfl : writeStatus 6#32 s = t := by simpa [busWrite, writeReg] using ht
    simp [State.irq]

/-! ### `LEN_LO`, `LEN_HI` and `DIGEST` -/

/-- Settles O19: the two words are the low 32 and the high 29 bits of `NBYTES`. -/
theorem lengthViews : Obligations.LengthViews := by
  intro s
  have hlo : readWindow 0x18#8 s = s.sess.nbytes.setWidth 32 := rfl
  have hhi : readWindow 0x1C#8 s = (s.sess.nbytes.extractLsb' 32 29).setWidth 32 := rfl
  rw [hlo, hhi]
  refine ⟨BitVec.setWidth_eq_extractLsb' (by decide), ?_, ?_⟩
  · ext i hi
    simp [BitVec.getLsbD_of_ge]
  · have := s.sess.nbytes.isLt
    simp [Nat.shiftRight_eq_div_pow]
    omega

theorem digestReadable_iff (s : State) :
    digestReadable s = true ↔ s.digestValid = true ∧ (s.dsrc = .hash ∨ s.dsrc = .tag) := by
  simp [digestReadable]

/-- `DIGEST[i]` where the digest may be read, and where it may not (R40). -/
theorem readWindow_digest (i : Fin 8) (s : State) :
    readWindow (BitVec.ofNat 8 (0x40 + 4 * i.val)) s = if digestReadable s then s.d[i] else 0 := by
  rw [readWindow, regAt_digest]; rfl

/-- `READDIGEST` gives the digest's bytes (R114). -/
theorem readDigest_of_readable {s : State} (h : digestReadable s = true) : readDigest s = ser s.d := by
  have hread (i : Fin 8) : readReg (.digest i) s = s.d[i] := by simp [readReg, h]
  have hlist : s.d.toList = (List.finRange 8).map fun i => s.d[i] := by
    apply List.ext_getElem <;> simp
  simp only [readDigest, hread, ser, hlist, List.flatMap_map]

/-- Every fourth byte of a string of words is the top byte of its word (R14). -/
theorem flatMap_bytes32_getElem? (ws : List Word) (i : Nat) :
    (ws.flatMap bytes32)[4 * i]? = ws[i]?.map fun w => w.extractLsb' 24 8 := by
  induction ws generalizing i with
  | nil => simp
  | cons w rest ih =>
    cases i with
    | zero => simp [bytes32]
    | succ i =>
      rw [List.flatMap_cons, List.getElem?_append_right (by simp), bytes32_length,
        show 4 * (i + 1) - 4 = 4 * i by omega, ih, List.getElem?_cons_succ]

/-- Settles O20: the gate is `digestReadable`; past it the words are the digest's. -/
theorem digestReadGate : Obligations.DigestReadGate := by
  intro s
  refine ⟨fun i => by simp only [readWindow_digest, digestReadable_iff], fun hv hd => ?_⟩
  have h := (digestReadable_iff s).2 ⟨hv, hd⟩
  rw [readDigest_of_readable h]
  refine ⟨rfl, ser_length _, fun i => ?_⟩
  rw [readWindow_digest, if_pos h, ser, flatMap_bytes32_getElem?]
  simp

/-! ### After reset (R55, R330, R332) -/

theorem atResetValues_reset : AtResetValues State.reset := by
  simp [AtResetValues, State.reset, Session.reset]

theorem atResetValues_resetCore (s : State) : AtResetValues (resetCore s) := atResetValues_reset

/-- After a reset `STATUS` reads 0 (R332). -/
theorem statusWord_resetCore (s : State) : statusWord (resetCore s) = 0 := by
  simp [statusWord, flagAt, ErrCode.code, Dsrc.code, Mode.code]

/-- Settles O23: a reset step is `resetCore`, whose fields are those of the reset state. -/
theorem resetRestores : Obligations.ResetRestores := by
  intro s rest hi
  have hstep : step s = .next (resetCore { s with inputs := rest }) := step_of_inputs_cons hi
  exact ⟨_, hstep, atResetValues_resetCore _, rfl, rfl, statusWord_resetCore _, rfl, rfl⟩

/-- Settles O24: the registers of the reset state evaluate to these words, and with nothing in flight and no input the
engine's turn passes. -/
theorem resetStateReads : Obligations.ResetStateReads :=
  ⟨atResetValues_reset, rfl, rfl, rfl, rfl, rfl, rfl, rfl, rfl, rfl,
    (step_of_inputs_nil rfl).trans (engineTurn_of_idle rfl)⟩

/-- Settles O41: the reset values meet the clauses on the session, the key and the digest, and hold nothing that the
algorithm would have to define. -/
theorem resetMeetsInvariants : Obligations.ResetMeetsInvariants :=
  ⟨heldInv_reset.inv_of_idle rfl (fun _ => rfl) nofun (by decide) nofun, faithful_reset⟩

end Sys2Proof.Machine
end

section
/-! What the host can learn: reads and `irq` of two states that differ in hidden state alone are the same, and steps keep
two such states together. -/

namespace Sys2Proof.Machine

/-! ### What shows (R40, R56) -/

theorem Indistinguishable.busy {s t : State} (h : Indistinguishable s t) : s.busy = t.busy := by
  simp only [State.busy, h.pending]

theorem Indistinguishable.digestReadable {s t : State} (h : Indistinguishable s t) :
    Machine.digestReadable s = Machine.digestReadable t := by
  simp only [Machine.digestReadable, h.digestValid, h.dsrc]

theorem Indistinguishable.statusWord {s t : State} (h : Indistinguishable s t) :
    Machine.statusWord s = Machine.statusWord t := by
  simp only [Machine.statusWord, h.busy, h.done, h.err, h.digestValid, h.keyValid, h.resultValid, h.matched, h.errcode,
    h.dsrc, h.mode]

/-- Every register reads the same: `DIGEST` is the one that shows a part of the state that may differ, and it is gated. -/
theorem Indistinguishable.readReg {s t : State} (h : Indistinguishable s t) (r : Reg) :
    Machine.readReg r s = Machine.readReg r t := by
  cases r with
  | ctrl => simp only [Machine.readReg, h.irqEn]
  | status => exact h.statusWord
  | din => exact h.din
  | lenLo => simp only [Machine.readReg, h.nbytes]
  | lenHi => simp only [Machine.readReg, h.nbytes]
  | tagLen => exact h.tagLen
  | digest i =>
    simp only [Machine.readReg, ← h.digestReadable]
    split
    · rename_i hr; rw [h.readable hr]
    · rfl
  | tag i => simp only [Machine.readReg, h.tag]
  | id | version | cmd | reserved => rfl

/-- Settles O58: `irq` is a function of what shows, and every register reads the same. -/
theorem hiddenStateUnreadable : Obligations.HiddenStateUnreadable := fun _ _ off h =>
  ⟨h.readReg (regAt off), by simp only [State.irq, h.irqEn, h.done, h.err]⟩

/-! ### What each update does to two states that the host cannot tell apart -/

theorem Indistinguishable.precheck {s t : State} (h : Indistinguishable s t) (i : Instr) :
    Machine.precheck i s = Machine.precheck i t :=
  precheck_congr i h.mode h.nbytes h.keyValid h.digestValid h.dsrc

theorem Indistinguishable.raiseError {s t : State} (h : Indistinguishable s t) (e : ErrCode) :
    Indistinguishable (Machine.raiseError e s) (Machine.raiseError e t) :=
  { h with err := rfl, errcode := by simp only [raiseError_errcode, h.err, h.errcode] }

theorem Indistinguishable.accept {s t : State} (h : Indistinguishable s t) (v : Word) :
    Indistinguishable (Machine.accept v s) (Machine.accept v t) :=
  { h with
    resultValid := rfl, matched := rfl, done := rfl
    pending := by simp only [accept_pending, h.din] }

theorem Indistinguishable.retire {s t : State} (h : Indistinguishable s t) :
    Indistinguishable (Machine.retire s) (Machine.retire t) :=
  { h with pending := rfl, done := rfl, freeSeq := by simp only [retire_freeSeq, h.freeSeq] }

theorem Indistinguishable.resetCore {s t : State} (h : Indistinguishable s t) :
    Indistinguishable (Machine.resetCore s) (Machine.resetCore t) := by
  constructor <;> simp [h.inputs, h.lastRead, h.freeSeq]

theorem Indistinguishable.writeStatus {s t : State} (h : Indistinguishable s t) (v : Word) :
    Indistinguishable (Machine.writeStatus v s) (Machine.writeStatus v t) := by
  have hdone : Indistinguishable { s with done := false } { t with done := false } := { h with done := rfl }
  have hcleared {a b : State} (hab : Indistinguishable a b) : Indistinguishable (clearError a) (clearError b) :=
    { hab with err := rfl, errcode := rfl }
  unfold Machine.writeStatus
  split <;> split
  exacts [hcleared hdone, hdone, hcleared h, h]

/-- `BCNT` moves by the count of bytes alone (R222). -/
theorem absorbAll_bcnt_congr (bs : List Byte) {x y : Session} (h : x.bcnt = y.bcnt) :
    (x.absorbAll bs).bcnt = (y.absorbAll bs).bcnt := by
  induction bs generalizing x y with
  | nil => exact h
  | cons b rest ih => exact ih (x := x.absorb b) (y := y.absorb b) (by rw [absorb_bcnt, absorb_bcnt, h])

/-- `NBYTES` moves by the count of bytes alone (R222). -/
theorem absorbAll_nbytes_congr (bs : List Byte) {x y : Session} (h : x.nbytes = y.nbytes) :
    (x.absorbAll bs).nbytes = (y.absorbAll bs).nbytes := by
  induction bs generalizing x y with
  | nil => exact h
  | cons b rest ih => exact ih (x := x.absorb b) (y := y.absorb b) (by rw [absorb_nbytes, absorb_nbytes, h])

/-- A completion shows nothing hidden, but for the two that release a digest (R260): a session's data reach `D` only as an
inner digest, which cannot be read, and `VERIFY` compares a digest that can. -/
theorem Indistinguishable.committed {s t : State} {i : Instr} (din : Word) (h : Indistinguishable s t)
    (ha : Machine.precheck i s = none) (hfin : i = .finish → s.mode ≠ .hash) (hout : i ≠ .hmacOuter) :
    Indistinguishable (Machine.committed i din s) (Machine.committed i din t) := by
  cases i with
  | hashStart =>
    exact { h with
      mode := rfl, bcnt := rfl, nbytes := rfl, digestValid := rfl, dsrc := rfl, readable := fun _ => rfl }
  | keyStart =>
    exact { h with
      mode := rfl, bcnt := rfl, nbytes := rfl, keyValid := rfl, digestValid := rfl, dsrc := rfl
      readable := fun _ => rfl }
  | hmacInnerStart =>
    exact { h with
      mode := rfl
      bcnt := by simp only [Machine.committed, startWithBlock_bcnt]
      nbytes := by simp only [Machine.committed, startWithBlock_nbytes]
      digestValid := rfl, dsrc := rfl, readable := fun _ => rfl }
  | push n =>
    exact { h with bcnt := absorbAll_bcnt_congr _ h.bcnt, nbytes := absorbAll_nbytes_congr _ h.nbytes }
  | finish =>
    have hm := hfin rfl
    have hdsrc : (Machine.committed .finish din s).dsrc = .inner := by simp [Machine.committed, hm]
    have hdsrc' : (Machine.committed .finish din t).dsrc = .inner := by simp [Machine.committed, ← h.mode, hm]
    exact { h with
      mode := rfl, bcnt := rfl, digestValid := rfl
      dsrc := hdsrc.trans hdsrc'.symm
      readable := fun hr => by simp [Machine.digestReadable, hdsrc] at hr }
  | keyFinish => exact { h with mode := rfl, bcnt := rfl, keyValid := rfl }
  | hmacOuter => exact absurd rfl hout
  | verify =>
    obtain ⟨-, hr⟩ : s.mode = .idle ∧ Machine.digestReadable s = true := by
      simpa [preState] using preState_of_admitted ha
    have hd : s.d = t.d := h.readable hr
    exact { h with
      resultValid := rfl
      matched := by simp only [Machine.committed, verdict, h.tagLen, h.tag, hd] }
  | clear =>
    constructor <;> simp [Machine.committed, h.irqEn, h.inputs, h.lastRead, h.freeSeq]

/-! ### Steps in lockstep -/

/-- Where the first outcome is a next state, so is the second, and the host cannot tell the two states apart. -/
def StayTogether (o o' : Outcome) : Prop :=
  ∀ s', o = .next s' → ∃ t', o' = .next t' ∧ Indistinguishable s' t'

theorem stayTogether_next {s t : State} (h : Indistinguishable s t) : StayTogether (.next s) (.next t) := by
  rintro s' hs'
  obtain rfl : s = s' := by simpa using hs'
  exact ⟨t, rfl, h⟩

/-- Reading returns the same word (R56, R72). -/
theorem Indistinguishable.busRead {s t : State} (h : Indistinguishable s t) (off : BitVec 8) :
    StayTogether (Machine.busRead off s) (Machine.busRead off t) :=
  stayTogether_next { h with lastRead := congrArg some (h.readReg (regAt off)) }

/-- A `CMD` write is accepted or refused alike (R130, R133): its checks read nothing hidden. -/
theorem Indistinguishable.commandWrite {s t : State} (h : Indistinguishable s t) (v : Word) :
    StayTogether (Machine.commandWrite v s) (Machine.commandWrite v t) := by
  unfold Machine.commandWrite
  rw [← h.busy]
  split
  · exact stayTogether_next (h.raiseError _)
  · rename_i hb
    have hp : s.pending = none := (busy_eq_false_iff s).1 (by simpa using hb)
    split
    · exact stayTogether_next (h.raiseError _)
    · rename_i i hd
      have hi := wellFormed_of_decode hd
      rw [exec_of_idle hi hp, exec_of_idle hi (h.pending ▸ hp)]
      unfold present
      rw [← h.precheck i]
      split
      · exact stayTogether_next (h.raiseError _)
      · exact stayTogether_next (h.accept _)

theorem Indistinguishable.writeUnlessBusy {s t a b : State} (h : Indistinguishable s t) (hab : Indistinguishable a b) :
    StayTogether (Machine.writeUnlessBusy s a) (Machine.writeUnlessBusy t b) := by
  unfold Machine.writeUnlessBusy
  rw [← h.busy]
  split
  · exact stayTogether_next (h.raiseError _)
  · exact stayTogether_next hab

/-- A register write does the same to both states (R73 to R76). -/
theorem Indistinguishable.writeReg {s t : State} (h : Indistinguishable s t) (r : Reg) (v : Word) :
    StayTogether (Machine.writeReg r v s) (Machine.writeReg r v t) := by
  cases r with
  | ctrl => exact stayTogether_next { h with irqEn := rfl }
  | status => exact stayTogether_next (h.writeStatus v)
  | cmd => exact h.commandWrite v
  | din => exact stayTogether_next { h with din := rfl }
  | tagLen => exact h.writeUnlessBusy { h with tagLen := rfl }
  | tag i => exact h.writeUnlessBusy { h with tag := by simp only [h.tag] }
  | id | version | lenLo | lenHi | digest | reserved => exact stayTogether_next h

/-- Every event but the engine's turn keeps the two states together. -/
theorem Indistinguishable.takeEvent {s t : State} (h : Indistinguishable s t) {e : Event} (he : e ≠ .engine) :
    StayTogether (Machine.takeEvent e s) (Machine.takeEvent e t) := by
  cases e with
  | read off => exact h.busRead off
  | write off v => exact h.writeReg (regAt off) v
  | readAt addr =>
    simp only [Machine.takeEvent]
    cases windowOffset addr with
    | some off => exact h.busRead off
    | none => exact stayTogether_next h
  | writeAt addr v =>
    simp only [Machine.takeEvent]
    cases windowOffset addr with
    | some off => exact h.writeReg (regAt off) v
    | none => exact stayTogether_next h
  | engine => exact absurd rfl he
  | reset => exact stayTogether_next h.resetCore

theorem Indistinguishable.rest {s t : State} (h : Indistinguishable s t) : Indistinguishable s.rest t.rest :=
  { h with inputs := congrArg List.tail h.inputs }

/-- Where the engine's turn is next, a step is that turn. -/
theorem step_of_engineNext {s : State} (h : EngineNext s) : step s = engineTurn s.rest := by
  rcases h with hi | ⟨rest, hi⟩
  · have hs : s.rest = s := by rw [State.rest, hi, List.tail_nil, ← hi]
    rw [step_of_inputs_nil hi, hs]
  · rw [step_of_inputs_cons hi, State.rest, hi]; rfl

/-- The engine's turn completes the same command in both states (R135), which stay together where that releases no
digest. -/
theorem Indistinguishable.engineStep {s t s' : State} (h : Indistinguishable s t) (hinv : Inv s) (he : EngineNext s)
    (hst : step s = .next s') : ∃ t', step t = .next t' ∧ (ReleasesDigest s ∨ Indistinguishable s' t') := by
  rw [step_of_engineNext he] at hst
  rw [step_of_engineNext (show EngineNext t by simpa only [EngineNext, h.inputs] using he)]
  rcases engineTurn_cases hst with ⟨hp, rfl⟩ | ⟨p, i, hp, hd, rfl⟩
  · exact ⟨t.rest, engineTurn_of_idle (h.pending ▸ hp), .inr h.rest⟩
  · have hpt : t.rest.pending = some p := h.pending ▸ hp
    have hc : CompletesNext i s := ⟨he, p, hp, hd⟩
    obtain ⟨hi, -, ha⟩ := hinv.admitted_of_completesNext hc
    refine ⟨_, (engineTurn_of_decode hpt hd).trans (exec_completes hi hpt), or_iff_not_imp_left.2 fun hrel => ?_⟩
    have hfin : i = .finish → s.rest.mode ≠ .hash := fun hif hm => hrel (.inl ⟨hif ▸ hc, hm⟩)
    have hout : i ≠ .hmacOuter := fun hio => hrel (.inr (hio ▸ hc))
    exact (h.rest.committed p.din ((precheck_rest i s).trans ha) hfin hout).retire

/-- Settles O59: an input that is not the engine's turn shows nothing hidden, and of the completions only two do. -/
theorem onlyResultsLeaveTheCore : Obligations.OnlyResultsLeaveTheCore := by
  intro s t s' hinv h hst
  by_cases he : EngineNext s
  · exact h.engineStep hinv he hst
  · cases hi : s.inputs with
    | nil => exact absurd (.inl hi) he
    | cons e rest =>
      have hne : e ≠ .engine := fun hc => he (.inr ⟨rest, hc ▸ hi⟩)
      have hrest : Indistinguishable { s with inputs := rest } { t with inputs := rest } := { h with inputs := rfl }
      rw [step_of_inputs_cons hi] at hst
      obtain ⟨t', ht', hind⟩ := hrest.takeEvent hne s' hst
      exact ⟨t', (step_of_inputs_cons (h.inputs ▸ hi)).trans ht', .inr hind⟩

end Sys2Proof.Machine
end

section
/-! The register window: the register that an access reaches depends on bits 7:2 of its offset alone; what a read returns
and a write does there, while busy too. And the block word that four pushed bytes form. -/

namespace Sys2Proof.Machine

/-! ### The offset of an access, its bits 1:0 ignored (R70) -/

/-- Masking an offset, as the bus does, leaves its register. -/
@[simp] theorem regAt_masked (off : BitVec 8) : regAt (off &&& 0xFC#8) = regAt off := by
  rw [regAt, wordIndex, BitVec.and_assoc, BitVec.and_self]; rfl

/-- An offset reads as the masked offset does. -/
theorem readWindow_of_masked {off : BitVec 8} {n : Nat} (h : (off &&& 0xFC#8).toNat = n) (s : State) :
    readWindow off s = readWindow (BitVec.ofNat 8 n) s := by
  rw [readWindow, readWindow, ← regAt_masked, ← h, BitVec.ofNat_toNat, BitVec.setWidth_eq]

theorem readWindow_tag (i : Fin 8) (s : State) : readWindow (BitVec.ofNat 8 (0x60 + 4 * i.val)) s = s.tag[i] := by
  rw [readWindow, regAt_tag]; rfl

/-- No register shows what the host has read before (R72). -/
theorem readWindow_lastRead (off : BitVec 8) (s : State) (w : Option Word) :
    readWindow off { s with lastRead := w } = readWindow off s := by
  unfold readWindow; cases regAt off <;> rfl

/-- Settles O17: each clause at its masked offset, where the register reads as R72 says; a read changes `lastRead` alone,
which no register shows. -/
theorem windowReadMap : Obligations.WindowReadMap := by
  intro off s o
  have hread {n : Nat} (h : o = n) : readWindow off s = readWindow (BitVec.ofNat 8 n) s := readWindow_of_masked h s
  refine ⟨hread, hread, fun h => ?ctrl, hread, hread, hread, fun h => ?lenLo, hread, hread, fun i h => ?digest,
    fun i h => (hread h).trans (readWindow_tag i s), fun h => ?reserved,
    ⟨_, rfl, fun off' => readWindow_lastRead off' s _⟩⟩
  case ctrl =>
    rw [hread h, readWindow, regAt_ctrl, readReg]
    cases s.irqEn <;> rfl
  case lenLo =>
    rw [hread h, show readWindow 0x18#8 s = s.sess.nbytes.setWidth 32 from rfl, BitVec.setWidth_eq_extractLsb' (by decide)]
  case digest => simp only [hread h, readWindow_digest, digestReadable_iff]
  case reserved => rw [readWindow, regAt_of_reserved_range h]; rfl

theorem busRead_masked (off : BitVec 8) (s : State) : busRead (off &&& 0xFC#8) s = busRead off s := by
  simp only [busRead, readWindow, regAt_masked]

theorem busWrite_masked (off : BitVec 8) (v : Word) (s : State) : busWrite (off &&& 0xFC#8) v s = busWrite off v s := by
  simp only [busWrite, regAt_masked]

theorem windowOffset_of_inside {addr : Nat} (hlo : Config.base ≤ addr) (hhi : addr < Config.base + 256) :
    windowOffset addr = some (BitVec.ofNat 8 (addr - Config.base)) := if_pos ⟨hlo, hhi⟩

theorem windowOffset_of_outside {addr : Nat} (h : addr < Config.base ∨ Config.base + 256 ≤ addr) :
    windowOffset addr = none := if_neg (by omega)

/-- Settles O22: `windowOffset` gives the offset inside the window and none outside, and masking it leaves the access. -/
theorem windowDecode : Obligations.WindowDecode := by
  refine ⟨Nat.mul_mod_right _ _, fun addr v s => ⟨fun hlo hhi => ?inside, fun hout => ?outside⟩⟩
  case inside =>
    rw [busRead_masked, busWrite_masked]
    simp only [takeEvent, windowOffset_of_inside hlo hhi, and_self]
  case outside => simp only [takeEvent, windowOffset_of_outside hout, and_self]

/-! ### Writes while busy (R75, R304) and the write to `STATUS` (R74) -/

theorem commandWrite_of_busy {s : State} (v : Word) (h : s.busy = true) :
    commandWrite v s = .next (raiseError .busy s) := if_pos h

theorem writeUnlessBusy_of_busy {s : State} (t : State) (h : s.busy = true) :
    writeUnlessBusy s t = .next (raiseError .busy s) := if_pos h

/-- Settles O12: a busy core refuses the three writes as `raiseError` does, and the other three do not ask. -/
theorem writesWhileBusy : Obligations.WritesWhileBusy := by
  intro v s hb
  refine ⟨commandWrite_of_busy v hb, writeUnlessBusy_of_busy _ hb, fun i => ?tag, rfl, rfl, rfl⟩
  case tag => rw [busWrite, regAt_tag]; exact writeUnlessBusy_of_busy _ hb

/-- Settles O15: the cases of the two W1C bits. -/
theorem statusWriteClears : Obligations.StatusWriteClears := by
  intro v s
  rw [busWrite, regAt_status, writeReg, writeStatus]
  cases v.getLsbD 1 <;> cases v.getLsbD 2 <;> rfl

/-! ### Four pushed bytes as a block word (R77, R183, R224) -/

/-- A word is put together from its bytes, first byte on top (R14). -/
theorem be32_bytes32 (w : Word) :
    be32 (w.extractLsb' 24 8) (w.extractLsb' 16 8) (w.extractLsb' 8 8) (w.extractLsb' 0 8) = w := by
  have h24 : 24 = 16 + 8 := rfl
  have h16 : 16 = 8 + 8 := rfl
  have h8 : 8 = 0 + 8 := rfl
  rw [be32, BitVec.extractLsb'_append_extractLsb'_eq_extractLsb' h24,
    BitVec.extractLsb'_append_extractLsb'_eq_extractLsb' h16, BitVec.extractLsb'_append_extractLsb'_eq_extractLsb' h8,
    BitVec.extractLsb'_eq_self]

/-- Whether a held full block is compressed before or with the next byte makes no difference (R222). -/
theorem absorb_flushFull (b : Byte) (x : Session) : x.flushFull.absorb b = x.absorb b := by
  by_cases h : x.bcnt = 64 <;> simp [Session.absorb, Session.flushFull, h]

theorem absorbAll_flushFull {bs : List Byte} (hbs : bs ≠ []) (x : Session) :
    x.flushFull.absorbAll bs = x.absorbAll bs := by
  cases bs with
  | nil => exact absurd rfl hbs
  | cons b rest => simp only [absorbAll_cons, absorb_flushFull]

/-- `PUSH 4` takes all four bytes of `DIN` (R77, R224). -/
theorem pushBytes_four (din : Word) : pushBytes 4 din = bytes32 din := rfl

theorem flushFull_of_room {x : Session} (h : x.bcnt < 64) : x.flushFull = x := if_neg (by omega)

theorem absorb_bcnt_of_room (b : Byte) {x : Session} (h : x.bcnt < 64) : (x.absorb b).bcnt = x.bcnt + 1 := by
  rw [absorb_bcnt, if_neg (by omega)]

/-- A byte that finds room goes to index `BCNT` (R222). -/
theorem absorb_buf_of_room (b : Byte) {x : Session} (h : x.bcnt < 64) : (x.absorb b).buf = x.buf.setIfInBounds x.bcnt b := by
  rw [Session.absorb, flushFull_of_room h, putByte_buf]

/-- Bytes that find room leave those before them. -/
theorem absorbAll_buf_below {x : Session} {bs : List Byte} (hroom : x.bcnt + bs.length ≤ 64) {i : Nat} (hi : i < 64)
    (hlt : i < x.bcnt) : (x.absorbAll bs).buf[i] = x.buf[i] := by
  induction bs generalizing x with
  | nil => rfl
  | cons b rest ih =>
    rw [List.length_cons] at hroom
    have hb := absorb_bcnt_of_room b (x := x) (by omega)
    simp only [absorbAll_cons]
    rw [ih (by omega) (by omega)]
    simp only [absorb_buf_of_room b (x := x) (by omega)]
    exact Vector.getElem_setIfInBounds_ne _ (by omega)

/-- Bytes that find room are in the buffer from `BCNT` on. -/
theorem absorbAll_buf_absorbed {x : Session} {bs : List Byte} (hroom : x.bcnt + bs.length ≤ 64) {k : Nat}
    (hk : k < bs.length) : (x.absorbAll bs).buf[x.bcnt + k] = bs[k] := by
  induction bs generalizing x k with
  | nil => exact absurd hk (by simp)
  | cons b rest ih =>
    rw [List.length_cons] at hroom hk
    have hb := absorb_bcnt_of_room b (x := x) (by omega)
    cases k with
    | zero =>
      simp only [absorbAll_cons, Nat.add_zero, List.getElem_cons_zero]
      rw [absorbAll_buf_below (by omega) _ (by omega)]
      simp only [absorb_buf_of_room b (x := x) (by omega), Vector.getElem_setIfInBounds_self]
    | succ k =>
      have := ih (x := x.absorb b) (k := k) (by omega) (by omega)
      simpa only [absorbAll_cons, List.getElem_cons_succ, hb, Nat.add_assoc, Nat.add_comm 1 k] using this

/-- The buffer that takes a whole word at word `j` holds it there. -/
theorem parseBlock_absorbAll_word {x : Session} (din : Word) {j : Fin 16} (h : x.bcnt = 4 * j.val) :
    (parseBlock (x.absorbAll (bytes32 din)).buf)[j] = din := by
  have hbyte {k : Nat} (hk : k < 4) :=
    absorbAll_buf_absorbed (x := x) (bs := bytes32 din) (by rw [bytes32_length]; omega) hk
  simp only [h] at hbyte
  have h0 := hbyte (k := 0) (by decide)
  have h1 := hbyte (k := 1) (by decide)
  have h2 := hbyte (k := 2) (by decide)
  have h3 := hbyte (k := 3) (by decide)
  simp only [Nat.add_zero] at h0
  simp only [parseBlock, Fin.getElem_fin, Vector.getElem_ofFn, h0, h1, h2, h3]
  exact be32_bytes32 din

/-- Settles O48: a held full block is compressed first, which leaves an empty buffer; the word then goes to word `j`. -/
theorem pushedWordIsBlockWord : Obligations.PushedWordIsBlockWord := by
  intro x din j h
  have hflush : x.flushFull.bcnt = 4 * j.val := by
    rcases h with h | ⟨h, rfl⟩
    · rw [flushFull_of_room (by omega), h]
    · rw [Session.flushFull, if_pos h]; rfl
  have hne : bytes32 din ≠ [] := List.cons_ne_nil _ _
  rw [pushBytes_four, ← absorbAll_flushFull hne, parseBlock_absorbAll_word din hflush]

end Sys2Proof.Machine
end

section
/-! The command words and their commands (R100 to R109): a word is put together from its three fields, so that a word that
decodes is the word of its command; and `PUSH` outside 1 to 4. -/

namespace Sys2Proof.Machine

/-- Settles O3: a fixed word for each command without an operand, and the four counts of `PUSH`. -/
theorem decodeOfEncode : Obligations.DecodeOfEncode := fun _ hi => decode_encode hi

/-! ### Encode after decode (R104, R131) -/

/-- A word is its `RSVD`, `NBM1` and `OPC` fields, from the top (R100). -/
theorem word_eq_fields (v : Word) : v = rsvdField v ++ (nbm1Field v ++ opcField v) := by
  have h4 : 4 = 0 + 4 := rfl
  have h6 : 6 = 0 + (2 + 4) := rfl
  rw [rsvdField, nbm1Field, opcField, BitVec.extractLsb'_append_extractLsb'_eq_extractLsb' h4,
    BitVec.extractLsb'_append_extractLsb'_eq_extractLsb' h6, BitVec.extractLsb'_eq_self]

/-- A word without reserved bits is its `NBM1` and `OPC` fields. -/
theorem word_eq_of_fields {v : Word} {opc : BitVec 4} (hr : rsvdField v = 0) (ho : (opcField v).toNat = opc.toNat) :
    v = 0#26 ++ (nbm1Field v ++ opc) := by
  conv_lhs => rw [word_eq_fields v, hr, BitVec.eq_of_toNat_eq ho]
  rfl

/-- A command without an operand is decoded from its opcode with `NBM1` = 0 alone (R103). -/
theorem decodePlain_eq_ok {v : Word} {i j : Instr} (h : decodePlain v i = .ok j) : i = j ∧ nbm1Field v = 0 := by
  unfold decodePlain at h
  split at h
  · exact ⟨by simpa using h, ‹_›⟩
  · cases h

/-- A word of an opcode without an operand is that opcode's command's word. -/
theorem encode_of_decodePlain {v : Word} {i j : Instr} {opc : BitVec 4} (hr : rsvdField v = 0)
    (ho : (opcField v).toNat = opc.toNat) (hw : encode i = 0#26 ++ (0#2 ++ opc)) (h : decodePlain v i = .ok j) :
    encode j = v := by
  obtain ⟨rfl, hn⟩ := decodePlain_eq_ok h
  rw [hw, word_eq_of_fields hr ho, hn]; rfl

/-- A word of `PUSH`'s opcode is the word of the count that its `NBM1` gives (R102). -/
theorem encode_push_of_fields {v : Word} (hr : rsvdField v = 0) (ho : (opcField v).toNat = 4) :
    encode (.push ((nbm1Field v).toNat + 1)) = v := by
  have hv := word_eq_of_fields (opc := 4#4) hr ho
  rw [encode, Nat.add_sub_cancel, BitVec.ofNat_toNat, BitVec.setWidth_eq, ← hv]

/-- The word of a decoded command is the word it was decoded from (R104, R131). -/
theorem encode_of_decode {v : Word} {i : Instr} (h : decode v = .ok i) : encode i = v := by
  unfold decode at h
  split at h
  case isTrue => cases h
  case isFalse hr =>
    have hr : rsvdField v = 0 := not_not.1 hr
    split at h
    case h_1 ho => exact encode_of_decodePlain (opc := 0x1#4) hr ho rfl h
    case h_2 ho => exact encode_of_decodePlain (opc := 0x2#4) hr ho rfl h
    case h_3 ho => exact encode_of_decodePlain (opc := 0x3#4) hr ho rfl h
    case h_4 ho => cases h; exact encode_push_of_fields hr ho
    case h_5 ho => exact encode_of_decodePlain (opc := 0x5#4) hr ho rfl h
    case h_6 ho => exact encode_of_decodePlain (opc := 0x6#4) hr ho rfl h
    case h_7 ho => exact encode_of_decodePlain (opc := 0x7#4) hr ho rfl h
    case h_8 ho => exact encode_of_decodePlain (opc := 0x8#4) hr ho rfl h
    case h_9 ho => exact encode_of_decodePlain (opc := 0xF#4) hr ho rfl h
    case h_10 => cases h

/-- Settles O4: the decoder gives well-formed commands alone, and the fields of a legal word put it together again. -/
theorem encodeOfDecode : Obligations.EncodeOfDecode := fun _ _ h => ⟨wellFormed_of_decode h, encode_of_decode h⟩

/-! ### The words of the map (R104, R109) and an ill-formed `PUSH` -/

/-- Settles O1: the decoder evaluates to these on sixteen words. -/
theorem opcodeWordsDecode : Obligations.OpcodeWordsDecode := by
  unfold Obligations.OpcodeWordsDecode; decide

/-- A count that R109 excludes is not one from 1 to 4. -/
theorem not_wellFormed_push {n : Nat} (h : n = 0 ∨ 5 ≤ n) : ¬ WellFormed (.push n) := by
  rw [wellFormed_push_iff]; omega

/-- Settles O2: the words are the encoder's, and an ill-formed `PUSH` is decoded from no word because the decoder gives
well-formed commands alone. -/
theorem mnemonicsEncode : Obligations.MnemonicsEncode :=
  ⟨by decide, fun _ hn => ⟨not_wellFormed_push hn, fun _ hd => not_wellFormed_push hn (wellFormed_of_decode hd)⟩⟩

/-- Settles O6: `PUSH`'s meaning tests its count before anything else. -/
theorem illFormedPushStops : Obligations.IllFormedPushStops := by
  intro n s hn
  have hcount : ¬ (1 ≤ n ∧ n ≤ 4) := by omega
  rw [exec, execPush, if_neg hcount]

end Sys2Proof.Machine
end

section
/-! Runs of the host's sequences (R108 to R118), from the inside out: a poll, a `WAIT`, a `CMDW`, a `PUSHSTR`, a session from
its start to its end; then `HASH`, `LOADKEY` and `HMAC`. -/

namespace Sys2Proof.Machine

/-! ### One command (R110, R111) -/

/-- A state after one more read, of the word `w`. -/
def State.saw (s : State) (w : Option Word) : State := { s with lastRead := w }

/-- What a completion commits to the core does not depend on the word last read. -/
theorem committed_saw (i : Instr) (din : Word) (s : State) (w : Option Word) :
    committed i din (s.saw w) = (committed i din s).saw w := by cases i <;> rfl

/-- What a completion commits to the core does not depend on the inputs still to come. -/
theorem committed_inputs (i : Instr) (din : Word) (s : State) (es : List Event) :
    committed i din { s with inputs := es } = { committed i din s with inputs := es } := by cases i <;> rfl

/-- A `STATUS` read of a run (R27). -/
theorem Runs.readStatus (s : State) : Runs [.read 0x0C#8] s (s.saw (some (statusWord s))) :=
  Runs.read 0x0C#8 s

/-- Polls of `STATUS` change the word last read alone (R110). -/
theorem Runs.polls (n : Nat) (s : State) :
    ∃ w, Runs (List.replicate n (.read 0x0C#8)) s (s.saw w) := by
  induction n generalizing s with
  | zero => exact ⟨s.lastRead, Runs.nil s⟩
  | succ n ih =>
    obtain ⟨w, hw⟩ := ih (s.saw (some (statusWord s)))
    exact ⟨w, (Runs.readStatus s).append hw⟩

/-- The engine's turn of a run completes the command in flight (R135). -/
theorem Runs.engine {i : Instr} {s : State} {p : Pending} (hi : WellFormed i) (hp : s.pending = some p)
    (hd : decode p.cmd = .ok i) : Runs [.engine] s (retire (committed i p.din s)) :=
  Runs.one fun rest => by
    have hp' : ({ s with inputs := rest } : State).pending = some p := hp
    rw [takeEvent, engineTurn_of_decode hp' hd, exec_completes hi hp']
    exact congrArg (fun t => Host.Outcome.next (retire t)) (committed_inputs i p.din s rest)

/-- The write of an admitted command to `CMD` of an idle core is its acceptance (R130, R134). -/
theorem Runs.acceptance {i : Instr} {s : State} (hi : WellFormed i) (hp : s.pending = none) (ha : precheck i s = none) :
    Runs [wr 0x10 (encode i)] s (accept (encode i) s) :=
  Runs.one fun rest => by
    have hb : ({ s with inputs := rest } : State).busy = false := (busy_eq_false_iff _).2 hp
    have ha' : precheck i { s with inputs := rest } = none := by
      rw [← ha]; exact precheck_congr i rfl rfl rfl rfl rfl
    calc busWrite 0x10#8 (encode i) { s with inputs := rest }
      _ = exec i { s with inputs := rest } := commandWrite_of_decode hb (decode_encode hi)
      _ = present i { s with inputs := rest } := exec_of_idle hi hp
      _ = .next (accept (encode i) { s with inputs := rest }) := present_of_admitted ha'

/-- Where a command that was written in `s` has completed. -/
def completionOf (i : Instr) (s : State) : State := retire (committed i s.din (accept (encode i) s))

/-- Where a run of `CMDW` ends: the command has completed, and the last poll has read `STATUS`. -/
def afterCmdW (i : Instr) (s : State) : State := (completionOf i s).saw (some (statusWord (completionOf i s)))

/-- A run of `CMDW` for an admitted command (R111). -/
theorem IsCmdW.runs {i : Instr} {s : State} {es : List Event} (hes : IsCmdW i es) (hi : WellFormed i)
    (hp : s.pending = none) (ha : precheck i s = none) : Runs es s (afterCmdW i s) := by
  obtain ⟨_, ⟨polls, rfl⟩, rfl⟩ := hes
  obtain ⟨w, hpolls⟩ := Runs.polls polls (accept (encode i) s)
  have hengine : Runs [.engine] ((accept (encode i) s).saw w) ((completionOf i s).saw w) := by
    have h := Runs.engine (s := (accept (encode i) s).saw w) hi rfl (decode_encode hi)
    rwa [committed_saw] at h
  exact (Runs.acceptance hi hp ha).append (hpolls.append (hengine.append (Runs.readStatus _)))

/-- Only `CLEAR` touches the error registers (R136, R139). -/
theorem afterCmdW_errorKept {i : Instr} (s : State) (hi : i ≠ .clear) : ErrorKept s (afterCmdW i s) := by
  cases i with
  | clear => exact absurd rfl hi
  | _ => exact ⟨rfl, rfl⟩

theorem ErrorKept.trans {s t u : State} (h1 : ErrorKept s t) (h2 : ErrorKept t u) : ErrorKept s u :=
  ⟨h2.1.trans h1.1, h2.2.trans h1.2⟩

/-! ### The bytes of a string (R112, R113) -/

/-- From `s` to `t` the open session has come to hold `str`, and nothing else that a result depends on has changed. -/
structure Absorbed (str : List Byte) (s t : State) : Prop where
  pending : t.pending = none
  represents : Represents t.sess str
  mode : t.mode = s.mode
  key : KeyKept s t
  result : ResultKept s t
  error : ErrorKept s t

theorem Absorbed.trans {a b : List Byte} {s t u : State} (h1 : Absorbed a s t) (h2 : Absorbed b t u) : Absorbed b s u where
  pending := h2.pending
  represents := h2.represents
  mode := h2.mode.trans h1.mode
  key := ⟨h2.key.1.trans h1.key.1, h2.key.2.trans h1.key.2⟩
  result := ⟨h2.result.1.trans h1.result.1, h2.result.2.1.trans h1.result.2.1, h2.result.2.2.trans h1.result.2.2⟩
  error := h1.error.trans h2.error

/-- A `PUSH` within the length limit is admitted in an open session (R133, R137). -/
theorem push_admitted {n : Nat} {s : State} {str : List Byte} (hm : s.mode ≠ .idle) (h : Represents s.sess str)
    (hf : str.length + n ≤ 2 ^ 61 - 1) : precheck (.push n) s = none := by
  refine precheck_eq_none_iff.2 ⟨?_, ?_⟩
  · rw [preState]; cases hs : s.mode <;> simp_all
  · simpa [lengthOk, h.nbytes] using hf

/-- A run of `PUSHW` absorbs the first `n` bytes of its word (R112, R224). -/
theorem IsPushW.runs {v : Word} {n : Nat} {es : List Event} {s : State} {str : List Byte} (hes : IsPushW v n es)
    (hn : WellFormed (.push n)) (hp : s.pending = none) (hm : s.mode ≠ .idle) (h : Represents s.sess str)
    (hf : str.length + n ≤ 2 ^ 61 - 1) : ∃ t, Runs es s t ∧ Absorbed (str ++ pushBytes n v) s t := by
  obtain ⟨c, hc, rfl⟩ := hes
  have hdin : Runs [wr 0x14 v] s { s with din := v } := Runs.one fun _ => rfl
  have hcmd := hc.runs (s := { s with din := v }) hn hp (push_admitted hm h hf)
  have hlen : (pushBytes n v).length = n := pushBytes_length v (wellFormed_push_iff.1 hn).2
  exact ⟨_, hdin.append hcmd, rfl, h.absorbAll (pushBytes n v) (by omega), rfl, ⟨rfl, rfl⟩, ⟨rfl, rfl, rfl⟩, ⟨rfl, rfl⟩⟩

/-- The bytes of a word that was put together from them (R14). -/
theorem bytes32_be32 (a b c d : Byte) : bytes32 (be32 a b c d) = [a, b, c, d] := by
  have below {w n : Nat} (x : BitVec w) (y : Byte) : (x ++ y).extractLsb' (n + 8) 8 = x.extractLsb' n 8 :=
    BitVec.extractLsb'_append_eq_of_le (Nat.le_add_left 8 n)
  have h24 : (be32 a b c d).extractLsb' 24 8 = a :=
    (below (n := 16) _ d).trans ((below (n := 8) _ c).trans BitVec.extractLsb'_append_eq_left)
  have h16 : (be32 a b c d).extractLsb' 16 8 = b :=
    (below (n := 8) _ d).trans ((below (n := 0) _ c).trans BitVec.extractLsb'_append_eq_right)
  have h8 : (be32 a b c d).extractLsb' 8 8 = c := (below (n := 0) _ d).trans BitVec.extractLsb'_append_eq_right
  have h0 : (be32 a b c d).extractLsb' 0 8 = d := BitVec.extractLsb'_append_eq_right
  rw [bytes32, h24, h16, h8, h0]

theorem pushBytes_be32 (n : Nat) (a b c d : Byte) : pushBytes n (be32 a b c d) = [a, b, c, d].take n := by
  rw [pushBytes, bytes32_be32]

/-- A run of `PUSHSTR` absorbs its string (R113). -/
theorem IsPushStr.runs {bs : List Byte} {es : List Event} {s : State} {str : List Byte} (hes : IsPushStr bs es)
    (hp : s.pending = none) (hm : s.mode ≠ .idle) (h : Represents s.sess str)
    (hf : str.length + bs.length ≤ 2 ^ 61 - 1) : ∃ t, Runs es s t ∧ Absorbed (str ++ bs) s t := by
  induction bs, es using IsPushStr.induct generalizing s str with
  | case1 es =>
    obtain rfl : es = [] := hes
    exact ⟨s, Runs.nil s, hp, by simpa using h, rfl, ⟨rfl, rfl⟩, ⟨rfl, rfl, rfl⟩, ⟨rfl, rfl⟩⟩
  | case2 a es => simpa [pushBytes_be32] using IsPushW.runs hes rfl hp hm h hf
  | case3 a b es => simpa [pushBytes_be32] using IsPushW.runs hes rfl hp hm h hf
  | case4 a b c es => simpa [pushBytes_be32] using IsPushW.runs hes rfl hp hm h hf
  | case5 a b c d rest es ih =>
    obtain ⟨first, more, hfirst, hmore, rfl⟩ := hes
    simp only [List.length_cons] at hf
    obtain ⟨t, ht, hat⟩ := hfirst.runs rfl hp hm h (by omega)
    obtain ⟨u, hu, hau⟩ := ih more hmore hat.pending (hat.mode ▸ hm) hat.represents
      (by simp only [pushBytes_be32, List.length_append, List.length_take, List.length_cons, List.length_nil]; omega)
    refine ⟨u, ht.append hu, hat.trans ?_⟩
    simpa [pushBytes_be32] using hau

/-! ### A session (R115, R116) -/

/-- A run that opens a session with command `i`, pushes a string and closes the session with command `j`. -/
theorem runs_session {i j : Instr} {bs str : List Byte} {c1 p c2 : List Event} {s : State}
    (hc1 : IsCmdW i c1) (hpush : IsPushStr bs p) (hc2 : IsCmdW j c2) (hi : WellFormed i) (hj : WellFormed j)
    (hp : s.pending = none) (hai : precheck i s = none) (hm : (afterCmdW i s).mode ≠ .idle)
    (hr : Represents (afterCmdW i s).sess str) (hf : str.length + bs.length ≤ 2 ^ 61 - 1)
    (haj : ∀ u : State, u.mode = (afterCmdW i s).mode → precheck j u = none) :
    ∃ u, Absorbed (str ++ bs) (afterCmdW i s) u ∧ Runs (c1 ++ p ++ c2) s (afterCmdW j u) := by
  obtain ⟨u, hu, hau⟩ := hpush.runs rfl hm hr hf
  exact ⟨u, hau, ((hc1.runs hi hp hai).append hu).append (hc2.runs hj hau.pending (haj u hau.mode))⟩

/-- A session that `CLEAR` neither opens nor closes raises no error. -/
theorem Absorbed.errorKept {i j : Instr} {str : List Byte} {s u : State} (h : Absorbed str (afterCmdW i s) u)
    (hi : i ≠ .clear) (hj : j ≠ .clear) : ErrorKept s (afterCmdW j u) :=
  (afterCmdW_errorKept s hi).trans (h.error.trans (afterCmdW_errorKept u hj))

/-- A command that no length check concerns is admitted where its row of R137 holds. -/
theorem admitted_of_preState {i : Instr} {s : State} (hl : lengthOk i s = true) (hs : preState i s = true) :
    precheck i s = none := precheck_eq_none_iff.2 ⟨hs, hl⟩

/-- Settles O55: the session holds the pushed string when `FINISH` ends it. -/
theorem hashSequenceGivesDigest : Obligations.HashSequenceGivesDigest := by
  rintro data _ s hf hb hm ⟨c1, p, c2, hc1, hpush, hc2, rfl⟩ hin
  have hp := (busy_eq_false_iff s).1 hb
  obtain ⟨u, hu, hrun⟩ := runs_session hc1 hpush hc2 rfl rfl hp (admitted_of_preState rfl (by simp [preState, hm]))
    (by exact Mode.noConfusion) start_represents (by simpa using hf)
    (fun u hu => admitted_of_preState rfl (by rw [preState, hu]; rfl))
  have hmode : u.mode = .hash := hu.mode
  have hdsrc : (afterCmdW .finish u).dsrc = .hash := if_pos hmode
  have hdigest : ser (afterCmdW .finish u).d = digest data := hu.represents.finishDigest u.din
  have hread : readDigest (afterCmdW .finish u) = digest data :=
    (readDigest_of_readable ((digestReadable_iff _).2 ⟨rfl, .inl hdsrc⟩)).trans hdigest
  exact ⟨_, hrun.finish hin, rfl, rfl, rfl, rfl, hdsrc, hread, hu.errorKept (by decide) (by decide), hu.key⟩

/-! ### A tag (R116) -/

/-- A run of `LOADKEY` ends with the key normalised in `K0` (R116, R255). -/
theorem IsLoadKey.runs {k : List Byte} {es : List Event} {s : State} (hes : IsLoadKey k es)
    (hf : k.length ≤ 2 ^ 61 - 1) (hp : s.pending = none) (hm : s.mode = .idle) :
    ∃ t, Runs es s t ∧ t.pending = none ∧ t.mode = .idle ∧ t.keyValid = true ∧ t.k0 = normKey k ∧ ErrorKept s t := by
  obtain ⟨c1, p, c2, hc1, hpush, hc2, rfl⟩ := hes
  obtain ⟨u, hu, hrun⟩ := runs_session hc1 hpush hc2 rfl rfl hp (admitted_of_preState rfl (by simp [preState, hm]))
    (by exact Mode.noConfusion) start_represents (by simpa using hf)
    (fun u hu => admitted_of_preState rfl (by rw [preState, hu]; rfl))
  have hkey : (afterCmdW .keyFinish u).k0 = normKey k :=
    Represents.storedKey (s := accept (encode .keyFinish) u) u.din hu.represents
  exact ⟨_, hrun, rfl, rfl, rfl, hkey, hu.errorKept (by decide) (by decide)⟩

/-- A run from `HMAC_INNER_START` to `FINISH` ends with the inner digest, the key kept (R256, R258). -/
theorem runs_innerSession {m : List Byte} {c1 p c2 : List Event} {s : State} (hc1 : IsCmdW .hmacInnerStart c1)
    (hpush : IsPushStr m p) (hc2 : IsCmdW .finish c2) (hf : m.length ≤ 2 ^ 61 - 65) (hp : s.pending = none)
    (hm : s.mode = .idle) (hk : s.keyValid = true) :
    ∃ t, Runs (c1 ++ p ++ c2) s t ∧ t.pending = none ∧ t.mode = .idle ∧ t.digestValid = true ∧ t.dsrc = .inner ∧
      ser t.d = innerDigest s.k0 m ∧ KeyKept s t ∧ ErrorKept s t := by
  obtain ⟨u, hu, hrun⟩ := runs_session hc1 hpush hc2 rfl rfl hp
    (admitted_of_preState rfl (by simp [preState, hm, hk])) (by exact Mode.noConfusion)
    (startWithBlock_represents _) (by rw [xorRep_length]; omega)
    (fun u hu => admitted_of_preState rfl (by rw [preState, hu]; rfl))
  have hmode : u.mode = .inner := hu.mode
  have hdsrc : (afterCmdW .finish u).dsrc = .inner := if_neg (by simp [hmode])
  have hdigest : ser (afterCmdW .finish u).d = innerDigest s.k0 m := hu.represents.finishDigest u.din
  exact ⟨_, hrun, rfl, rfl, rfl, hdsrc, hdigest, hu.key, hu.errorKept (by decide) (by decide)⟩

/-- What a run of `HMAC` from `s` leaves in `t`: the tag, readable, and no key (R116, R259). -/
structure HoldsTag (k m : List Byte) (s t : State) : Prop where
  pending : t.pending = none
  mode : t.mode = .idle
  digestValid : t.digestValid = true
  dsrc : t.dsrc = .tag
  tag : ser t.d = hmac k m
  error : ErrorKept s t
  keyValid : t.keyValid = false
  k0 : t.k0 = zeroBytes

/-- The held tag may be read, and `VERIFY` may use it (R40, R137). -/
theorem HoldsTag.readable {k m : List Byte} {s t : State} (h : HoldsTag k m s t) : digestReadable t = true :=
  (digestReadable_iff t).2 ⟨h.digestValid, .inr h.dsrc⟩

/-- A run of `HMAC`: the key, the inner session under it, and the outer digest (R116, R252). -/
theorem IsHmac.runs {k m : List Byte} {es : List Event} {s : State} (hes : IsHmac k m es)
    (hk : k.length ≤ 2 ^ 61 - 1) (hf : m.length ≤ 2 ^ 61 - 65) (hp : s.pending = none) (hm : s.mode = .idle) :
    ∃ t, Runs es s t ∧ HoldsTag k m s t := by
  obtain ⟨l, c1, p, c2, c3, hl, hc1, hpush, hc2, hc3, rfl⟩ := hes
  obtain ⟨u, hu, hup, hum, hukv, huk0, hue⟩ := hl.runs hk hp hm
  obtain ⟨v, hv, hvp, hvm, hvdv, hvds, hvd, ⟨hvk0, hvkv⟩, hve⟩ := runs_innerSession hc1 hpush hc2 hf hup hum hukv
  have houter := hc3.runs rfl hvp
    (admitted_of_preState rfl (by simp [preState, hvm, hvkv, hukv, hvdv, hvds]))
  have htag : ser (afterCmdW .hmacOuter v).d = hmac k m :=
    calc ser (afterCmdW .hmacOuter v).d
      _ = digest ((xorRep v.k0 0x5c#8).toList ++ ser v.d) := ser_committed_hmacOuter v.din (accept (encode .hmacOuter) v)
      _ = hmac k m := by rw [hvd, hvk0, huk0, hmac]
  have hrun := hu.append (hv.append houter)
  refine ⟨afterCmdW .hmacOuter v, by simpa only [List.append_assoc] using hrun, rfl, hvm, rfl, rfl, htag, ?_, rfl, rfl⟩
  exact hue.trans (hve.trans (afterCmdW_errorKept v (by decide)))

/-- Settles O56: the run of `HMAC` ends with the tag held, which is then readable. -/
theorem hmacSequenceGivesTag : Obligations.HmacSequenceGivesTag := by
  intro k m es s hk hf hb hm hes hin
  obtain ⟨t, hrun, ht⟩ := hes.runs hk hf ((busy_eq_false_iff s).1 hb) hm
  have hread : readDigest t = hmac k m := (readDigest_of_readable ht.readable).trans ht.tag
  exact ⟨_, hrun.finish hin, rfl, (busy_eq_false_iff t).2 ht.pending, ht.mode, ht.digestValid, ht.dsrc, hread, ht.error,
    ht.keyValid, ht.k0⟩

end Sys2Proof.Machine
end

section
/-! The run of `VERIFY_HMAC` (R117): the comparator on whole strings, the received tag in the host's registers, and the
verdict that the last poll reads. -/

namespace Sys2Proof.Machine

/-! ### The comparator (R280, R281) -/

/-- A loop that ORs bytes ends at 0 exactly where every byte is 0. -/
theorem foldl_or_eq_zero_iff (l : List Byte) (acc : Byte) :
    l.foldl (fun diff x => diff ||| x) acc = 0#8 ↔ acc = 0#8 ∧ ∀ x ∈ l, x = 0#8 := by
  induction l generalizing acc with
  | nil => simp
  | cons x rest ih => simp [ih, BitVec.or_eq_zero_iff, and_assoc]

/-- Strings of one length differ nowhere exactly where they are equal. -/
theorem zipWith_xor_eq_zero_iff {a b : List Byte} (h : a.length = b.length) :
    (∀ x ∈ List.zipWith (· ^^^ ·) a b, x = 0#8) ↔ a = b := by
  induction a generalizing b with
  | nil => cases b with
    | nil => simp
    | cons y ys => simp at h
  | cons x xs ih => cases b with
    | nil => simp at h
    | cons y ys => simp [ih (Nat.succ.inj h), BitVec.xor_eq_zero_iff]

/-- `CtEq` is equality on strings of one length (R280). -/
theorem ctEq_eq_true_iff {a b : List Byte} (h : a.length = b.length) : ctEq a b = true ↔ a = b := by
  rw [ctEq, beq_iff_eq, foldl_or_eq_zero_iff, zipWith_xor_eq_zero_iff h]
  exact and_iff_right rfl

/-- `Verify` accepts the expected tag alone (R281). -/
theorem verifyTag_eq_true_iff {expected r : List Byte} (he : expected.length = 32) :
    verifyTag expected r = true ↔ r = expected := by
  rw [verifyTag, Bool.and_eq_true, decide_eq_true_eq]
  constructor
  · rintro ⟨hr, hct⟩
    rw [List.take_of_length_le (by omega), ctEq_eq_true_iff (by omega)] at hct
    exact hct.symm
  · rintro rfl
    exact ⟨he, by rw [List.take_of_length_le (by omega), ctEq_eq_true_iff rfl]⟩

/-! ### The received tag, written (R117) -/

/-- Word `i` of a string, first byte on top. -/
def wordOf (l : List Byte) (i : Nat) : Word :=
  be32 (l.getD (4 * i) 0) (l.getD (4 * i + 1) 0) (l.getD (4 * i + 2) 0) (l.getD (4 * i + 3) 0)

/-- The words of a string of whole words are its bytes. -/
theorem flatMap_bytes32_wordOf {l : List Byte} {n : Nat} (h : l.length = 4 * n) :
    (List.range n).flatMap (fun i => bytes32 (wordOf l i)) = l := by
  induction n generalizing l with
  | zero => exact (List.length_eq_zero_iff.1 h).symm
  | succ n ih =>
    obtain ⟨a, b, c, d, rest, rfl⟩ : ∃ a b c d rest, l = a :: b :: c :: d :: rest := by
      match l, h with
      | a :: b :: c :: d :: rest, _ => exact ⟨a, b, c, d, rest, rfl⟩
    have hrest : rest.length = 4 * n := by simp only [List.length_cons] at h; omega
    have hstep (i : Nat) : wordOf (a :: b :: c :: d :: rest) (i + 1) = wordOf rest i := by
      simp [wordOf, Nat.mul_add]
    rw [List.range_succ_eq_map, List.flatMap_cons, List.flatMap_map]
    simp only [Nat.succ_eq_add_one, hstep, ih hrest]
    simp [wordOf, bytes32_be32]

/-- A row of words as bytes, where each word is that of the string. -/
theorem ser_of_words {x : Words8} {l : List Byte} (hl : l.length = 32) (h : ∀ i : Fin 8, x[i] = wordOf l i.val) :
    ser x = l := by
  have hlist : x.toList = (List.range 8).map (wordOf l) := by
    apply List.ext_getElem
    · simp
    · intro i hi _
      have := h ⟨i, by simpa using hi⟩
      simpa using this
  rw [ser, hlist, List.flatMap_map]
  exact flatMap_bytes32_wordOf hl

theorem tagBytes_length (r : List Byte) : (tagBytes r).length = 32 := by
  simp [tagBytes]; omega

/-- The write of a `TAG` word on an idle core (R41, R73). -/
theorem Runs.writeTag {s : State} (hp : s.pending = none) (i : Fin 8) (v : Word) :
    Runs [wr (0x60 + 4 * i.val) v] s { s with tag := s.tag.set i v } :=
  Runs.one fun rest => by
    have hb : ({ s with inputs := rest } : State).busy = false := (busy_eq_false_iff _).2 hp
    rw [wr, takeEvent, busWrite, regAt_tag, writeReg, writeUnlessBusy, hb]; rfl

/-- The first `n` writes of `TAG` words leave those words (R117). -/
theorem runs_writeTags {s : State} (hp : s.pending = none) (word : Nat → Word) {n : Nat} (hn : n ≤ 8) :
    ∃ tag : Words8, Runs ((List.range n).map fun i => wr (0x60 + 4 * i) (word i)) s { s with tag := tag } ∧
      ∀ i : Fin 8, i.val < n → tag[i] = word i.val := by
  induction n with
  | zero => exact ⟨s.tag, Runs.nil s, fun i hi => absurd hi (Nat.not_lt_zero _)⟩
  | succ n ih =>
    obtain ⟨tag, hrun, htag⟩ := ih (by omega)
    have hlast := Runs.writeTag (s := { s with tag := tag }) hp ⟨n, hn⟩ (word n)
    refine ⟨tag.set n (word n), ?_, fun i hi => ?_⟩
    · rw [List.range_succ, List.map_append]
      exact hrun.append hlast
    · by_cases hin : i.val = n
      · simp [hin]
      · have := htag i (by omega)
        simpa [Vector.getElem_set_ne (h := fun e => hin e.symm)] using this

/-- The length written is 32 for a tag of 32 bytes alone: a longer one's does not come round to it (R117). -/
theorem tagLenWord_eq_iff (n : Nat) :
    (if n < 2 ^ 32 then BitVec.ofNat 32 n else 0xFFFFFFFF#32) = 32#32 ↔ n = 32 := by
  split
  · rw [← BitVec.toNat_inj, BitVec.toNat_ofNat, Nat.mod_eq_of_lt ‹_›]; rfl
  · exact iff_of_false (by decide) (by omega)

/-- The write of `TAG_LEN` on an idle core (R39, R73). -/
theorem Runs.writeTagLen {s : State} (hp : s.pending = none) (v : Word) :
    Runs [wr 0x20 v] s { s with tagLen := v } :=
  Runs.one fun rest => by
    have hb : ({ s with inputs := rest } : State).busy = false := (busy_eq_false_iff _).2 hp
    rw [wr, takeEvent, busWrite, regAt_tagLen, writeReg, writeUnlessBusy, hb]; rfl

/-- The writes of a received tag and its length leave the held tag (R117). -/
theorem HoldsTag.runs_writeReceived {k m : List Byte} {s t : State} (h : HoldsTag k m s t) (r : List Byte) :
    ∃ u, Runs (writeTagWords r ++ [writeTagLen r]) t u ∧ HoldsTag k m s u ∧
      ser u.tag = tagBytes r ∧ (u.tagLen = 32#32 ↔ r.length = 32) := by
  obtain ⟨tag, hwords, htag⟩ := runs_writeTags h.pending (wordOf (tagBytes r)) (Nat.le_refl 8)
  have hlen := Runs.writeTagLen (s := { t with tag := tag }) h.pending
    (if r.length < 2 ^ 32 then BitVec.ofNat 32 r.length else 0xFFFFFFFF#32)
  exact ⟨_, hwords.append hlen, ⟨h.pending, h.mode, h.digestValid, h.dsrc, h.tag, h.error, h.keyValid, h.k0⟩,
    ser_of_words (tagBytes_length r) fun i => htag i i.isLt, tagLenWord_eq_iff _⟩

/-! ### The verdict (R281, R282) -/

/-- The comparator's verdict on a received tag as the host has written it is `Verify`'s. -/
theorem verdict_eq_verifyTag {s : State} {r : List Byte} (ht : ser s.tag = tagBytes r)
    (hl : s.tagLen = 32#32 ↔ r.length = 32) : verdict s = verifyTag (ser s.d) r := by
  by_cases hr : r.length = 32
  · have hbytes : tagBytes r = r.take 32 := by simp [tagBytes, hr, zeros]
    simp [verdict, verifyTag, ht, hbytes, hr, hl.2 hr]
  · have hne : s.tagLen ≠ 32#32 := fun h => hr (hl.1 h)
    simp [verdict, verifyTag, hr, hne]

/-- Settles O57: the run of `HMAC` holds the tag, the writes leave it there, and `VERIFY`'s last poll shows the verdict. -/
theorem verifySequenceGivesVerdict : Obligations.VerifySequenceGivesVerdict := by
  rintro k m r _ s hk hf hb hm ⟨h, c, hh, hc, rfl⟩ hin
  obtain ⟨t, ht, htag⟩ := hh.runs hk hf ((busy_eq_false_iff s).1 hb) hm
  obtain ⟨u, hwrites, hu, hser, hlen⟩ := htag.runs_writeReceived r
  have hverify := hc.runs rfl hu.pending (admitted_of_preState rfl (by simp [preState, hu.mode, hu.readable]))
  have hrun := ht.append (hwrites.append hverify)
  simp only [← List.append_assoc] at hrun
  obtain ⟨-, -, -, -, -, hvalid, hmatch, -⟩ := statusWord_flags (completionOf .verify u)
  have hverdict : (statusWord (completionOf .verify u)).getLsbD 6 = verifyTag (hmac k m) r :=
    calc (statusWord (completionOf .verify u)).getLsbD 6
      _ = verdict u := hmatch
      _ = verifyTag (hmac k m) r := by rw [verdict_eq_verifyTag hser hlen, hu.tag]
  refine ⟨_, _, hrun.finish hin, rfl, rfl, hvalid, hverdict, ?_, hu.error⟩
  rw [hverdict]
  exact verifyTag_eq_true_iff (digest_length _)

end Sys2Proof.Machine
end

section
/-! The command protocol (R130 to R139): a `CMD` write against `Check` and `CommandWrite` as the rules write them, what
acceptance changes, and what the completion of an accepted command depends on. -/

namespace Sys2Proof.Machine

/-! ### `Check` and `CommandWrite` (R130, R133) -/

theorem checkRule_of_busy {s : State} (v : Word) (hb : s.busy = true) : checkRule v s = some .busy := if_pos hb

theorem checkRule_of_illegal {v : Word} {s : State} {r : Illegal} (hb : s.busy = false) (hd : decode v = .error r) :
    checkRule v s = some .illegalCmd := by
  simp [checkRule, hb, hd]

/-- Past `BUSY` and `Decode`, the rule's tests are those of the decoded command. -/
theorem checkRule_of_decode {v : Word} {s : State} {i : Instr} (hb : s.busy = false) (hd : decode v = .ok i) :
    checkRule v s = precheck i s := by
  cases hs : preState i s with
  | false => simp [checkRule, precheck, hb, hd, hs]
  | true =>
    cases i with
    | push n =>
      simp only [checkRule, precheck, hb, hd, hs, lengthOk, decide_eq_true_eq, gt_iff_lt, ← not_le, ite_not,
        Bool.false_eq_true, Bool.true_eq_false, if_true, if_false]
    | _ => simp [checkRule, precheck, hb, hd, hs, lengthOk]

theorem commandWriteRule_of_refused {v : Word} {s : State} {e : ErrCode} (h : checkRule v s = some e) :
    commandWriteRule v s = raiseError e s := by
  simp [commandWriteRule, h]

theorem commandWriteRule_of_admitted {v : Word} {s : State} (h : checkRule v s = none) :
    commandWriteRule v s = accept v s := by
  simp [commandWriteRule, h]

/-- A write to `CMD` gives the state of the rule: the cases are those of `Check`'s tests, in its order. -/
theorem commandWrite_eq_rule (v : Word) (s : State) : commandWrite v s = .next (commandWriteRule v s) := by
  cases hb : s.busy with
  | true => rw [commandWriteRule_of_refused (checkRule_of_busy v hb), commandWrite, if_pos hb]
  | false =>
    cases hd : decode v with
    | error r =>
      rw [commandWriteRule_of_refused (checkRule_of_illegal hb hd)]
      simp [commandWrite, hb, hd]
    | ok i =>
      rw [commandWrite_of_decode hb hd, exec_of_idle (wellFormed_of_decode hd) ((busy_eq_false_iff s).1 hb)]
      have hcheck := checkRule_of_decode hb hd
      cases ha : precheck i s with
      | some e => rw [present_of_refused ha, commandWriteRule_of_refused (hcheck.trans ha)]
      | none => rw [present_of_admitted ha, commandWriteRule_of_admitted (hcheck.trans ha), encode_of_decode hd]

/-- `Check` passes only on a word that decodes. -/
theorem decode_of_checkRule_none {v : Word} {s : State} (h : checkRule v s = none) : ∃ i, decode v = .ok i := by
  cases hb : s.busy with
  | true => simp [checkRule_of_busy v hb] at h
  | false =>
    cases hd : decode v with
    | error r => simp [checkRule_of_illegal hb hd] at h
    | ok i => exact ⟨i, rfl⟩

/-- Settles O8: a write to `CMD` gives the state of the rule, which is a refusal or the acceptance of the word written. -/
theorem commandWriteFollowsRule : Obligations.CommandWriteFollowsRule := by
  intro v s
  have hwrite : busWrite 0x10#8 v s = .next (commandWriteRule v s) := commandWrite_eq_rule v s
  refine ⟨hwrite, fun e he => ?refused, fun hok => ?accepted⟩
  case refused =>
    rw [hwrite, commandWriteRule_of_refused he]; rfl
  case accepted =>
    obtain ⟨i, hd⟩ := decode_of_checkRule_none hok
    refine ⟨i, hd, ?_⟩
    rw [hwrite, commandWriteRule_of_admitted hok, ← encode_of_decode hd]; rfl

/-! ### Acceptance (R134) -/

/-- The step of an admitted command with nothing in flight is `accept` of its word. -/
theorem exec_of_admitted {i : Instr} {s : State} (hi : WellFormed i) (hb : s.busy = false) (ha : precheck i s = none) :
    exec i s = .next (accept (encode i) s) :=
  (exec_of_idle hi ((busy_eq_false_iff s).1 hb)).trans (present_of_admitted ha)

/-- `STATUS` bit 0 reads `BUSY` (R27, R28). -/
theorem readWindow_status_busy (s : State) : (readWindow 0x0C#8 s).getLsbD 0 = s.busy := (statusWord_flags s).1

/-- Settles O9: the step is `accept`, whose fields are the ones the rule names, and it leaves a word in flight. -/
theorem acceptanceChangesOnly : Obligations.AcceptanceChangesOnly := by
  intro i s hi hb ha
  rw [exec_of_admitted hi hb ha]
  refine ⟨rfl, ?_⟩
  rintro _ ⟨rfl⟩
  exact ⟨rfl, readWindow_status_busy _⟩

/-! ### Completion (R135, R136, R138, R139) -/

/-- After `CLEAR`, `STATUS` reads `DONE` alone (R139). -/
theorem statusWord_cleared (din : Word) (s : State) : statusWord (retire (committed .clear din s)) = 0x00000002#32 := by
  simp [statusWord, flagAt, committed, State.reset, ErrCode.code, Dsrc.code, Mode.code]

/-- Settles O34: what `CLEAR` commits holds the reset values in all but `CTRL` and the model's own fields. -/
theorem clearReturnsToReset : Obligations.ClearReturnsToReset := by
  intro s p hp
  exact ⟨_, exec_completes rfl hp, ⟨rfl, rfl, rfl⟩, atResetValues_reset, rfl, statusWord_cleared p.din s, rfl, rfl⟩

/-- An ill-formed command has no next state (R109). -/
theorem wellFormed_of_exec_next {i : Instr} {s t : State} (h : exec i s = .next t) : WellFormed i := by
  cases i with
  | push n =>
    by_contra hn
    rw [wellFormed_push_iff] at hn
    rw [illFormedPushStops n s (by omega)] at h
    cases h
  | _ => rfl

/-- The registers that the host may write while a command is in flight, with other values. -/
def State.withHostWrites (s : State) (irqEn : Bool) (din : Word) (err : Bool) (errcode : ErrCode) : State :=
  { s with irqEn := irqEn, din := din, err := err, errcode := errcode }

/-- What every command but `CLEAR` commits depends on none of these registers and leaves them (R136). -/
theorem committed_withHostWrites {i : Instr} (hi : i ≠ .clear) (latched : Word) (s : State) (irqEn : Bool) (din : Word)
    (err : Bool) (errcode : ErrCode) :
    committed i latched (s.withHostWrites irqEn din err errcode) =
      (committed i latched s).withHostWrites irqEn din err errcode := by
  cases i with
  | clear => exact absurd rfl hi
  | _ => rfl

/-- Settles O36: the completion uses the `DIN` latched at acceptance, so the registers pass through it. -/
theorem hostWritesSurviveCompletion : Obligations.HostWritesSurviveCompletion := by
  intro i s t p irqEn err din errcode hne hp hst
  have hi := wellFormed_of_exec_next hst
  obtain rfl : retire (committed i p.din s) = t := by simpa [exec_completes hi hp] using hst
  calc exec i (s.withHostWrites irqEn din err errcode)
    _ = .next (retire (committed i p.din (s.withHostWrites irqEn din err errcode))) := exec_completes hi hp
    _ = .next (retire ((committed i p.din s).withHostWrites irqEn din err errcode)) := by
      rw [committed_withHostWrites hne]

/-- The last of one or more polls has read the `STATUS` word, which the polls themselves leave as it is (R72, R110). -/
theorem Runs.polls_succ (n : Nat) (s : State) :
    Runs (List.replicate (n + 1) (.read 0x0C#8)) s (s.saw (some (statusWord s))) := by
  induction n generalizing s with
  | zero => exact Runs.readStatus s
  | succ n ih => exact (Runs.readStatus s).append (ih (s.saw (some (statusWord s))))

/-- Any number of polls change the word last read alone; after one or more it is the `STATUS` word (R110). -/
theorem Runs.polls_status (n : Nat) (s : State) :
    ∃ w, Runs (List.replicate n (.read 0x0C#8)) s (s.saw w) ∧ (n > 0 → w = some (statusWord s)) := by
  cases n with
  | zero => exact ⟨s.lastRead, Runs.nil s, fun h => absurd h (Nat.lt_irrefl 0)⟩
  | succ n => exact ⟨_, Runs.polls_succ n s, fun _ => rfl⟩

/-- A run of the events that come first, with the others left to come. -/
theorem Runs.of_inputs {es rest : List Event} {s t : State} (h : Runs es s t) (hi : s.inputs = es ++ rest) :
    Host.Core.run core es.length s = .next { t with inputs := rest } := by
  have hs : s = { s with inputs := es ++ rest } := by rw [← hi]
  rw [hs]
  exact h 0 rest

/-- On its turn the engine completes the command in flight (R135), and the inputs after the turn are left to come. -/
theorem step_completes {i : Instr} {s : State} {p : Pending} (hp : s.pending = some p) (hd : decode p.cmd = .ok i)
    (rest : List Event) :
    step { s with inputs := .engine :: rest } = .next { retire (committed i p.din s) with inputs := rest } :=
  calc step { s with inputs := .engine :: rest }
    _ = engineTurn { s with inputs := rest } := rfl
    _ = exec i { s with inputs := rest } := engineTurn_of_decode hp hd
    _ = .next (retire (committed i p.din { s with inputs := rest })) := exec_completes (wellFormed_of_decode hd) hp
    _ = .next { retire (committed i p.din s) with inputs := rest } := by rw [committed_inputs]; rfl

/-- The engine's turn after an acceptance and polls: the command completes (R135, R138). -/
theorem step_completes_accepted {i : Instr} (hi : WellFormed i) (s : State) (w : Option Word) (rest : List Event) :
    step { (accept (encode i) s).saw w with inputs := .engine :: rest } =
      .next { (completionOf i s).saw w with inputs := rest } := by
  have h := step_completes (s := (accept (encode i) s).saw w) rfl (decode_encode hi) rest
  rwa [committed_saw] at h

/-- Settles O35: acceptance, then the polls, which leave the command in flight; the next step is the engine's turn. -/
theorem acceptedCommandCompletes : Obligations.AcceptedCommandCompletes := by
  intro i s polls rest hi hb ha hin
  obtain ⟨w, hpolls, hw⟩ := Runs.polls_status polls (accept (encode i) s)
  have hruns := (Runs.acceptance hi ((busy_eq_false_iff s).1 hb) ha).append hpolls
  have hrun := hruns.of_inputs (rest := .engine :: rest) hin
  rw [List.length_append, List.length_singleton, List.length_replicate] at hrun
  refine ⟨_, _, hrun, rfl, fun h => ⟨_, hw h, ?_⟩, step_completes_accepted hi s w rest, ⟨rfl, rfl, rfl⟩, rfl,
    fun hne => afterCmdW_errorKept s hne⟩
  exact readWindow_status_busy (accept (encode i) s)

end Sys2Proof.Machine
end

section
/-! The padder's numbers (R161 to R165, R171, R228): the zero bits, the byte form and its blocks; then the compressions,
by a balance of bytes between the buffer and the chain. -/

namespace Sys2Proof.Machine

/-! ### The zero bits and the byte form (R161, R162) -/

theorem padZeroBits_lt (l : Nat) : padZeroBits l < 512 := by unfold padZeroBits; omega

/-- The zero bits fill the last block up to the length field (R161). -/
theorem padZeroBits_fills (l : Nat) : (l + 1 + padZeroBits l) % 512 = 448 := by unfold padZeroBits; omega

/-- Fewer zero bits do not fill it: a smaller `k` would differ by less than a whole block (R161). -/
theorem padZeroBits_le {l k : Nat} (h : (l + 1 + k) % 512 = 448) : padZeroBits l ≤ k := by
  have hlt := padZeroBits_lt l
  have hfills := padZeroBits_fills l
  omega

/-- The formula wraps as 9-bit subtraction does (R161). -/
theorem padZeroBits_eq_sub (l : Nat) : padZeroBits l = (447#9 - BitVec.ofNat 9 l).toNat := by
  simp only [padZeroBits, BitVec.toNat_sub, BitVec.toNat_ofNat]
  omega

/-- Settles O44: the formula fills the block and stays below one block, which leaves no smaller `k`; and fixes where it
meets either bound. -/
theorem padZeroBitsSmallest : Obligations.PadZeroBitsSmallest := by
  intro l
  have hlt := padZeroBits_lt l
  have hfills := padZeroBits_fills l
  exact ⟨hfills, hlt, fun _ => padZeroBits_le, by omega, by omega, padZeroBits_eq_sub l⟩

theorem padZeroBytes_le (n : Nat) : padZeroBytes n ≤ 63 := by unfold padZeroBytes; omega

/-- For whole bytes, the zero bits are the seven that follow the 1-bit in its byte, and whole zero bytes (R162). -/
theorem padZeroBits_bytes (n : Nat) : padZeroBits (8 * n) = 8 * padZeroBytes n + 7 := by
  unfold padZeroBits padZeroBytes; omega

theorem pad_length (s : List Byte) : (pad s).length = 64 * ((s.length + 8) / 64 + 1) := by
  rw [pad_eq_padByteForm, padByteForm_length]

/-- The length of the byte form, part by part (R162). -/
theorem pad_length_parts (s : List Byte) : (pad s).length = s.length + 9 + padZeroBytes s.length := by
  simp only [pad_eq_padByteForm, padByteForm, List.length_append, List.length_singleton, zeros_length, be64bytes_length]
  omega

/-- Settles O45: the padded bits are the byte form's bits. (The model's own `padByteForm` has the obligation's name.) -/
theorem padByteFormHolds : Obligations.PadByteForm := fun str _ =>
  ⟨padZeroBytes_le _, padZeroBits_bytes _, pad_eq_padByteForm str, pad_length_parts str, pad_length str⟩

/-! ### The padded blocks and the length field (R163, R165) -/

theorem parse_length (p : List Byte) : (parse p).length = p.length / 64 := by simp [parse]

theorem parse_pad_length (s : List Byte) : (parse (pad s)).length = (s.length + 8) / 64 + 1 := by
  rw [parse_length, pad_length, Nat.mul_div_cancel_left _ (by omega)]

/-- The padded string ends with the original bit length (R165). -/
theorem pad_drop_lengthField (s : List Byte) :
    (pad s).drop ((pad s).length - 8) = be64bytes (BitVec.ofNat 64 (8 * s.length)) := by
  rw [pad_eq_padByteForm, padByteForm]
  refine List.drop_left' ?_
  rw [List.length_append (bs := be64bytes _), be64bytes_length, Nat.add_sub_cancel]

/-- Settles O46: the counts are one number in three forms, and the length field is the byte form's last part. -/
theorem padBlocksAndLengthField : Obligations.PadBlocksAndLengthField := by
  intro str _
  rw [parse_pad_length]
  exact ⟨rfl, by omega, by omega, by omega, pad_drop_lengthField str⟩

/-! ### Compressions (R171, R222, R228) -/

/-- `BCNT` stays in the buffer (R45). -/
theorem absorbAll_bcnt_le {x : Session} (bs : List Byte) (h : x.bcnt ≤ 64) : (x.absorbAll bs).bcnt ≤ 64 := by
  induction bs generalizing x with
  | nil => exact h
  | cons b rest ih =>
    refine ih (x := x.absorb b) ?_
    rw [absorb_bcnt]; split <;> omega

/-- A run of `Absorb` leaves its last byte in the buffer (R222). -/
theorem absorbAll_bcnt_pos {x : Session} {bs : List Byte} (h : bs ≠ []) : 0 < (x.absorbAll bs).bcnt := by
  induction bs generalizing x with
  | nil => exact absurd rfl h
  | cons b rest ih =>
    rw [absorbAll_cons]
    by_cases hr : rest = []
    · rw [hr, absorbAll_nil, absorb_bcnt]; split <;> omega
    · exact ih hr

/-- The balance of bytes: each compression takes 64 from the buffer, and the bytes absorbed go nowhere else (R222). -/
theorem absorbCompressions_balance (bs : List Byte) (x : Session) :
    64 * absorbCompressions bs x + (x.absorbAll bs).bcnt = x.bcnt + bs.length := by
  induction bs generalizing x with
  | nil => simp [absorbCompressions]
  | cons b rest ih =>
    have hrest := ih (x.absorb b)
    rw [absorb_bcnt] at hrest
    rw [absorbCompressions, absorbAll_cons, List.length_cons]
    by_cases hfull : x.bcnt = 64
    · rw [if_pos hfull] at hrest ⊢; omega
    · rw [if_neg hfull] at hrest ⊢; omega

/-- `PUSH n` compresses once where its bytes do not all fit in the buffer (R228). -/
theorem absorbCompressions_pushBytes {n : Nat} (din : Word) {x : Session} (h1 : 1 ≤ n) (h4 : n ≤ 4)
    (hx : x.bcnt ≤ 64) : absorbCompressions (pushBytes n din) x = if x.bcnt + n > 64 then 1 else 0 := by
  have hlen := pushBytes_length din h4
  have hbal := absorbCompressions_balance (pushBytes n din) x
  have hle := absorbAll_bcnt_le (pushBytes n din) hx
  have hpos := absorbAll_bcnt_pos (x := x) (List.ne_nil_of_length_pos (l := pushBytes n din) (by omega))
  split <;> omega

/-- The counted compressions of `Finalise` are `nc_fin(BCNT)` (R171). -/
theorem finaliseCompressions_eq {x : Session} (h : x.bcnt ≤ 64) : finaliseCompressions x = ncFinalise x.bcnt := by
  unfold finaliseCompressions ncFinalise Session.flushFull
  by_cases hfull : x.bcnt = 64
  · simp [hfull]
  · rw [if_neg hfull, if_neg hfull, putByte_bcnt]
    split <;> split <;> omega

/-- A session compresses once per block of its padded string (R228). -/
theorem sessionCompressions_eq (str : List Byte) :
    absorbCompressions str Session.start + finaliseCompressions (Session.start.absorbAll str) =
      (str.length + 9 + 63) / 64 := by
  have hle : (Session.start.absorbAll str).bcnt ≤ 64 := absorbAll_bcnt_le str (by simp)
  have hbal := absorbCompressions_balance str Session.start
  rw [start_bcnt] at hbal
  rw [finaliseCompressions_eq hle, ncFinalise]
  split <;> omega

/-- Settles O51: the balance of bytes fixes the compressions of `Absorb`, and what is left in the buffer those of
`Finalise`. -/
theorem compressionCounts : Obligations.CompressionCounts :=
  ⟨fun _ din _ => absorbCompressions_pushBytes din, fun _ => finaliseCompressions_eq,
    fun str _ => sessionCompressions_eq str⟩

end Sys2Proof.Machine
end

section
/-! The block parser (R180, R182): a string is cut before and after block `b`, and `Parse` splits at both cuts. -/

namespace Sys2Proof.Machine

/-- A string cut before and after its block `b`. -/
theorem take_append_chunk_append_drop (p : List Byte) (b : Nat) :
    p.take (64 * b) ++ ((p.drop (64 * b)).take 64 ++ (p.drop (64 * b)).drop 64) = p := by
  rw [List.take_append_drop, List.take_append_drop]

/-- The block after `b` whole blocks is number `b` of `Parse`, whatever follows it. -/
theorem parse_getElem?_chunk {a c : List Byte} (rest : List Byte) {b : Nat} (ha : a.length = 64 * b)
    (hc : c.length = 64) : (parse (a ++ (c ++ rest)))[b]? = some (parseBlock (toBytes64 c)) := by
  have hb : (parse a).length = b := by rw [parse_length]; omega
  rw [parse_append _ ⟨b, ha⟩, parse_append _ ⟨1, hc⟩, parse_one hc,
    List.getElem?_append_right hb.le, hb, Nat.sub_self]
  rfl

/-- Settles O47: the cuts leave `b` whole blocks before the chunk, which is a whole block itself. -/
theorem parseIsParseBlocks : Obligations.ParseIsParseBlocks := by
  intro p n hp
  refine ⟨by rw [parse_length]; omega, fun b hb => ?_⟩
  have hbefore : (p.take (64 * b)).length = 64 * b := by rw [List.length_take]; omega
  have hchunk : ((p.drop (64 * b)).take 64).length = 64 := by rw [List.length_take, List.length_drop]; omega
  have hblock := parse_getElem?_chunk ((p.drop (64 * b)).drop 64) hbefore hchunk
  rwa [take_append_chunk_append_drop] at hblock

end Sys2Proof.Machine
end

section
/-! The message schedule (R195): each word past the block's is the recurrence of the words before it. -/

namespace Sys2Proof.Machine

theorem extendSchedule_length (n : Nat) (w : List Word) : (extendSchedule n w).length = w.length + n := by
  induction n generalizing w with
  | zero => rfl
  | succ n ih => rw [extendSchedule, ih, List.length_append, List.length_singleton]; omega

theorem prefix_extendSchedule (n : Nat) (w : List Word) : w <+: extendSchedule n w := by
  induction n generalizing w with
  | zero => exact List.prefix_rfl
  | succ n ih => exact (List.prefix_append w [nextScheduleWord w]).trans (ih _)

/-- Each added word is the next word of the words before it. -/
theorem extendSchedule_getElem? {n t : Nat} {w : List Word} (hlo : w.length ≤ t) (hhi : t < w.length + n) :
    (extendSchedule n w)[t]? = some (nextScheduleWord ((extendSchedule n w).take t)) := by
  induction n generalizing w with
  | zero => omega
  | succ n ih =>
    rw [extendSchedule]
    obtain rfl | hlt := hlo.eq_or_lt
    · have hw : (w ++ [nextScheduleWord w]) <+: extendSchedule n (w ++ [nextScheduleWord w]) :=
        prefix_extendSchedule n _
      have htake : (extendSchedule n (w ++ [nextScheduleWord w])).take w.length = w :=
        (List.prefix_iff_eq_take.mp ((List.prefix_append w _).trans hw)).symm
      rw [htake]
      simpa using List.prefix_iff_getElem?.mp hw w.length (by simp)
    · have hlen : (w ++ [nextScheduleWord w]).length = w.length + 1 := by simp
      exact ih (by omega) (by omega)

/-- The recurrence looks back 2, 7, 15 and 16 words, so a prefix of at least 16 words shows it all it reads. -/
theorem nextScheduleWord_take {w : List Word} {t : Nat} (hlo : 16 ≤ t) (hhi : t ≤ w.length) :
    nextScheduleWord (w.take t) =
      smallSigma1 (w.getD (t - 2) 0) + w.getD (t - 7) 0 + smallSigma0 (w.getD (t - 15) 0) + w.getD (t - 16) 0 := by
  have hback {k : Nat} (hk : 0 < k) : (w.take t).getD (t - k) 0 = w.getD (t - k) 0 := by
    rw [List.getD_eq_getElem?_getD, List.getElem?_take_of_lt (by omega), ← List.getD_eq_getElem?_getD]
  simp only [nextScheduleWord, List.length_take_of_le hhi, hback, Nat.ofNat_pos]

theorem schedule_length (m : Block) : (schedule m).length = 64 := by
  rw [schedule, extendSchedule_length, Vector.length_toList]

/-- Settles O49: the block is a prefix of its schedule, and each later word is the recurrence of the words before. -/
theorem scheduleRecurrence : Obligations.ScheduleRecurrence := by
  refine fun m => ⟨schedule_length m, fun t => ?_, fun t hlo hhi => ?_⟩
  · have hblock : m.toList <+: schedule m := prefix_extendSchedule 48 _
    simpa using List.prefix_iff_getElem?.mp hblock t.val (by simp)
  · have hnext : (schedule m)[t]? = some (nextScheduleWord ((schedule m).take t)) :=
      extendSchedule_getElem? (by simpa using hlo) (by simp; omega)
    rw [hnext, nextScheduleWord_take hlo (by rw [schedule_length]; omega)]

end Sys2Proof.Machine
end

section
/-! The constant ROMs (R193, R194) against the scaled roots of the primes. -/

namespace Sys2Proof.Machine

/-- Settles O50: a finite table, compared entry by entry; the whole part of each root is below 8. -/
theorem constantRomsAreRoots : Obligations.ConstantRomsAreRoots :=
  ⟨rfl, by decide, by decide⟩

end Sys2Proof.Machine
end

section
/-! The digest session's completions (R223 to R225): `HASH_START` starts a session, `PUSH` absorbs into it, `FINISH` ends
it. Each is `committed` and then the command's end, so that what the rule does not name is left alone. -/

namespace Sys2Proof.Machine

/-- Every completion ends its command (R135). -/
theorem completed_retire (s : State) : Completed (retire s) := ⟨rfl, rfl, rfl⟩

/-- `NBYTES` grows by the count of absorbed bytes, as a 61-bit word (R46, R222). -/
theorem absorbAll_nbytes (bs : List Byte) (x : Session) :
    (x.absorbAll bs).nbytes = x.nbytes + BitVec.ofNat 61 bs.length := by
  induction bs generalizing x with
  | nil => simp
  | cons b rest ih =>
    rw [absorbAll_cons, ih, absorb_nbytes, List.length_cons, Nat.add_comm rest.length 1, BitVec.ofNat_add,
      ← BitVec.add_assoc]
    rfl

/-- What `PUSH n` commits is a session that holds the first `n` bytes of the latched `DIN` too (R224). -/
theorem Represents.pushed {n : Nat} {s : State} {str : List Byte} (din : Word) (h : Represents s.sess str) (hn : n ≤ 4)
    (hf : str.length + n ≤ 2 ^ 61 - 1) : Represents (committed (.push n) din s).sess (str ++ (bytes32 din).take n) :=
  h.absorbAll (pushBytes n din) (by rwa [pushBytes_length din hn])

/-- `PUSH n` counts its `n` bytes (R46, R224). -/
theorem committed_push_nbytes {n : Nat} (din : Word) (s : State) (hn : n ≤ 4) :
    (committed (.push n) din s).sess.nbytes = s.sess.nbytes + BitVec.ofNat 61 n := by
  rw [committed, absorbAll_nbytes, pushBytes_length din hn]

/-- Settles O29: the completion absorbs the first bytes of the latched `DIN` (`Represents.pushed`) and touches the session
alone. -/
theorem pushAbsorbs : Obligations.PushAbsorbs := by
  intro n s p h1 h4 hp
  refine ⟨_, exec_completes (wellFormed_push_iff.2 ⟨h1, h4⟩) hp, completed_retire _, rfl, ?represents, ?nbytes, ?frame⟩
  case represents => exact fun str hr hf => hr.pushed p.din h4 hf
  case nbytes => exact committed_push_nbytes p.din s h4
  case frame => exact ⟨⟨rfl, rfl⟩, ⟨rfl, rfl, rfl⟩, ⟨rfl, rfl, rfl, rfl⟩, ⟨rfl, rfl⟩, ⟨rfl, rfl⟩, rfl, rfl⟩

/-- `FINISH` names the origin of the digest by the mode of the session that it closes (R225). -/
theorem committed_finish_dsrc (din : Word) (s : State) :
    (committed .finish din s).dsrc = if s.mode = .hash then .hash else .inner := rfl

/-- Settles O30: the completion commits the padder's end of the session, which is the digest of the string it represents
(`Represents.finishDigest`), and closes the session. -/
theorem finishGivesDigest : Obligations.FinishGivesDigest := by
  intro s p hp
  refine ⟨_, exec_completes rfl hp, completed_retire _, rfl, rfl, fun hm => ?hash, fun hm => ?inner,
    fun str hr => hr.finishDigest p.din, ⟨rfl, rfl, rfl⟩, rfl, ?frame⟩
  case hash => rw [retire_dsrc, committed_finish_dsrc, if_pos hm]
  case inner => rw [retire_dsrc, committed_finish_dsrc, if_neg (by rw [hm]; decide)]
  case frame => exact ⟨⟨rfl, rfl⟩, ⟨rfl, rfl, rfl, rfl⟩, ⟨rfl, rfl⟩, ⟨rfl, rfl⟩, rfl, rfl⟩

/-- Settles O26: the completion starts a session, which has absorbed nothing (`start_represents`), and drops the
digest. -/
theorem hashStartOpensSession : Obligations.HashStartOpensSession := by
  intro s p hp
  refine ⟨_, exec_completes rfl hp, completed_retire _, rfl, start_represents, start_h,
    fun i => zeroWords_getElem i i.isLt, rfl, rfl, ?frame⟩
  case frame => exact ⟨⟨rfl, rfl⟩, ⟨rfl, rfl, rfl, rfl⟩, ⟨rfl, rfl⟩, ⟨rfl, rfl⟩, rfl, rfl⟩

end Sys2Proof.Machine
end

section
/-! The HMAC layer (R250 to R257): the normalised key case by case; then what `KEY_START`, `KEY_FINISH`,
`HMAC_INNER_START` and `HMAC_OUTER` complete to. -/

namespace Sys2Proof.Machine

/-! ### The normalised key (R250) -/

/-- A key of at most 64 bytes is not hashed. -/
theorem normKey_of_short {k : List Byte} (h : k.length ≤ 64) : normKey k = toBytes64 k := by
  rw [normKey, if_neg (by omega)]

/-- A longer key is hashed. -/
theorem normKey_of_long {k : List Byte} (h : 64 < k.length) : normKey k = toBytes64 (digest k) := by
  rw [normKey, if_pos h]

theorem normKey_toList_of_short {k : List Byte} (h : k.length ≤ 64) :
    (normKey k).toList = k ++ zeros (64 - k.length) := by
  rw [normKey_of_short h, toBytes64_toList h]

theorem normKey_toList_of_long {k : List Byte} (h : 64 < k.length) : (normKey k).toList = digest k ++ zeros 32 := by
  rw [normKey_of_long h, toBytes64_toList (by rw [digest_length]; decide), digest_length]

/-- Settles O54: a short key is padded (`normKey_toList_of_short`), which adds nothing to one of 64 bytes, and a long one
is hashed first (`normKey_toList_of_long`). -/
theorem normKeyCases : Obligations.NormKeyCases := by
  intro k
  refine ⟨Vector.length_toList, normKey_toList_of_short, normKey_toList_of_long, fun h => ?whole, ?empty⟩
  case whole => rw [normKey_toList_of_short h.le, h, Nat.sub_self, zeros, List.replicate_zero, List.append_nil]
  case empty => rw [normKey_of_short (Nat.zero_le _), toBytes64_nil]

/-! ### The key session (R253, R255) -/

/-- Settles O27: the completion starts a session, which has absorbed nothing (`start_represents`), and drops the key and
the digest. -/
theorem keyStartOpensSession : Obligations.KeyStartOpensSession := by
  intro s p hp
  refine ⟨_, exec_completes rfl hp, completed_retire _, rfl, start_represents, start_h,
    fun i => zeroBytes_getElem i i.isLt, rfl, fun i => zeroWords_getElem i i.isLt, rfl, rfl, ?frame⟩
  case frame => exact ⟨⟨rfl, rfl, rfl, rfl⟩, ⟨rfl, rfl⟩, ⟨rfl, rfl⟩, rfl, rfl⟩

/-- Settles O31: the completion stores the normalised form of the string that the session represents
(`Represents.storedKey`), and closes the session. -/
theorem keyFinishNormalises : Obligations.KeyFinishNormalises := by
  intro s p hp
  refine ⟨_, exec_completes rfl hp, completed_retire _, rfl, rfl, fun key hr => hr.storedKey p.din, ⟨rfl, rfl, rfl⟩, rfl,
    ?frame⟩
  case frame => exact ⟨⟨rfl, rfl, rfl⟩, ⟨rfl, rfl, rfl, rfl⟩, ⟨rfl, rfl⟩, ⟨rfl, rfl⟩, rfl, rfl⟩

/-! ### The inner and the outer session (R251, R256, R257) -/

theorem xorRep_getElem (k : Bytes64) (b : Byte) (i : Fin 64) : (xorRep k b)[i] = k[i] ^^^ b := by
  simp [xorRep]

/-- Settles O28: the completion starts a session whose held block is the inner key (`startWithBlock_represents`), and
keeps the key. -/
theorem innerStartOpensSession : Obligations.InnerStartOpensSession := by
  intro s p hp
  refine ⟨_, exec_completes rfl hp, completed_retire _, rfl, startWithBlock_represents _, rfl, rfl, rfl,
    fun i => xorRep_getElem s.k0 0x36#8 i, fun i => zeroWords_getElem i i.isLt, rfl, rfl, ?frame⟩
  case frame => exact ⟨⟨rfl, rfl⟩, ⟨rfl, rfl, rfl, rfl⟩, ⟨rfl, rfl⟩, ⟨rfl, rfl⟩, rfl, rfl⟩

/-- The outer session counts the 64 bytes of the outer key and the 32 of the inner digest. -/
theorem outerSession_nbytes (k0 : Bytes64) (inner : Words8) : (outerSession k0 inner).nbytes = 96 := by
  rw [outerSession, absorbAll_nbytes, startWithBlock_nbytes, ser_length]
  rfl

/-- Settles O32: the completion commits the padder's end of the outer session, which is the digest of the outer key and
the inner digest (`ser_committed_hmacOuter`), and drops the key. -/
theorem outerConsumesKey : Obligations.OuterConsumesKey := by
  intro s p hp
  refine ⟨_, exec_completes rfl hp, completed_retire _, rfl, rfl, rfl, ser_committed_hmacOuter p.din s,
    fun i => zeroBytes_getElem i i.isLt, rfl, ⟨rfl, rfl, rfl⟩, outerSession_nbytes s.k0 s.d, ?frame⟩
  case frame => exact ⟨⟨rfl, rfl, rfl, rfl⟩, ⟨rfl, rfl⟩, ⟨rfl, rfl⟩, rfl, rfl⟩

end Sys2Proof.Machine
end

section
/-! The comparator and the time it takes (R280 to R283, R345): the serialisation loses nothing, so that `VERIFY`'s verdict
on two strings is a comparison of words; and the latency reads the two length counters alone. -/

namespace Sys2Proof.Machine

/-! ### The comparator (R280 to R282) -/

/-- Settles O53: the two strings have one length, on which the loop is equality (`ctEq_eq_true_iff`). -/
theorem ctEqExactlyEqual : Obligations.CtEqExactlyEqual :=
  fun _ _ ha hb => ctEq_eq_true_iff (ha.trans hb.symm)

/-- Words of the same bytes are the same (R14). -/
theorem bytes32_injective : Function.Injective bytes32 := by
  intro v w h
  obtain ⟨h24, h16, h8, h0⟩ : _ ∧ _ ∧ _ ∧ _ := by simpa only [bytes32, List.cons.injEq, and_true] using h
  rw [← be32_bytes32 v, ← be32_bytes32 w, h24, h16, h8, h0]

/-- Strings of words can be told apart by their bytes, because every word has as many. -/
theorem flatMap_bytes32_injective : Function.Injective fun ws : List Word => ws.flatMap bytes32 := by
  intro vs
  induction vs with
  | nil =>
    rintro (_ | ⟨w, ws⟩) h
    · rfl
    · simp [bytes32] at h
  | cons v vs ih =>
    rintro (_ | ⟨w, ws⟩) h
    · simp [bytes32] at h
    · simp only [List.flatMap_cons] at h
      obtain ⟨hhead, htail⟩ := List.append_inj h rfl
      rw [bytes32_injective hhead, ih htail]

/-- The serialised form determines the words (R14). -/
theorem ser_injective : Function.Injective ser :=
  fun _ _ h => Vector.toList_inj.1 (flatMap_bytes32_injective h)

/-- The comparator's verdict, word by word (R282). -/
theorem verdict_eq_true_iff (s : State) :
    verdict s = true ↔ s.tagLen = 32#32 ∧ ∀ i : Fin 8, s.d[i] = s.tag[i] := by
  have hser : ctEq (ser s.d) (ser s.tag) = true ↔ s.d = s.tag := by
    rw [ctEq_eq_true_iff (by rw [ser_length, ser_length]), ser_injective.eq_iff]
  have hwords : s.d = s.tag ↔ ∀ i : Fin 8, s.d[i] = s.tag[i] :=
    ⟨fun h i => by rw [h], fun h => Vector.ext fun i hi => h ⟨i, hi⟩⟩
  rw [verdict, Bool.and_eq_true, decide_eq_true_eq, hser, hwords]
  rfl

/-- The comparator's verdict is `Verify`'s on the 32 bytes of `TAG`, and on a string of a wrong length where `TAG_LEN` is
not 32 (R281, R282). -/
theorem verdict_eq_verifyTag_tag (s : State) :
    verdict s = verifyTag (ser s.d) (if s.tagLen = 32#32 then ser s.tag else []) := by
  by_cases h : s.tagLen = 32#32
  · have htake : (ser s.tag).take 32 = ser s.tag := List.take_of_length_le (ser_length _).le
    simp [verdict, verifyTag, h, htake]
  · simp [verdict, verifyTag, h]

/-- Settles O33: the completion commits the comparator's verdict, which compares words (`verdict_eq_true_iff`) and is
`Verify`'s (`verdict_eq_verifyTag_tag`). -/
theorem verifySetsVerdict : Obligations.VerifySetsVerdict := by
  intro s p hp
  refine ⟨_, exec_completes rfl hp, completed_retire _, rfl, verdict_eq_true_iff s, verdict_eq_verifyTag_tag s, ?frame⟩
  case frame => exact ⟨⟨rfl, rfl, rfl⟩, ⟨rfl, rfl⟩, ⟨rfl, rfl⟩, ⟨rfl, rfl, rfl, rfl⟩, ⟨rfl, rfl⟩, rfl, rfl⟩

/-! ### The latency (R283, R345, R346) -/

@[simp] theorem latency_verify (s : State) : latency .verify s = Config.latVerify := rfl

/-- A command that compresses takes its fixed part and one share for each block (R345). -/
theorem latency_of_ne_verify {i : Instr} (h : i ≠ .verify) (s : State) :
    latency i s = Config.latCmd + compressionCount i s * Config.latBlock := by
  cases i with
  | verify => exact absurd rfl h
  | _ => rfl

theorem latency_pos (i : Instr) (s : State) : 1 ≤ latency i s := by
  by_cases h : i = .verify
  · rw [h, latency_verify, Config.latVerify]
    exact Nat.le_add_left ..
  · rw [latency_of_ne_verify h, Config.latCmd]
    omega

/-- The compressions of a command are counted from `BCNT` and `NBYTES` (R171, R345). -/
theorem compressionCount_congr (i : Instr) {s t : State} (hb : s.sess.bcnt = t.sess.bcnt)
    (hn : s.sess.nbytes = t.sess.nbytes) : compressionCount i s = compressionCount i t := by
  cases i with
  | push n => simp only [compressionCount, hb]
  | finish => simp only [compressionCount, hb]
  | keyFinish => simp only [compressionCount, hb, hn]
  | _ => rfl

theorem latency_congr (i : Instr) {s t : State} (hb : s.sess.bcnt = t.sess.bcnt)
    (hn : s.sess.nbytes = t.sess.nbytes) : latency i s = latency i t := by
  by_cases h : i = .verify
  · rw [h, latency_verify, latency_verify]
  · rw [latency_of_ne_verify h, latency_of_ne_verify h, compressionCount_congr i hb hn]

/-- Settles O52: `VERIFY`'s latency reads no state, and the others read the count of compressions
(`compressionCount_congr`). -/
theorem latencyIgnoresData : Obligations.LatencyIgnoresData :=
  fun i s t => ⟨latency_pos i s, latency_congr i, (latency_verify s).trans (latency_verify t).symm,
    fun h => latency_of_ne_verify h s⟩

end Sys2Proof.Machine
end

section
/-! What the core refuses and never refuses (R300 to R306): the illegal words, the commands out of their state or past the
length limit, the first error kept, and a step that always has a next state. And `CLEAR` against a reset, and against a
`DIN` write before its completion (R335, R344). -/

namespace Sys2Proof.Machine

/-! ### Illegal words (R103, R105, R303) -/

/-- A command without an operand has no word with `NBM1` bits (R103). -/
theorem decodePlain_error_iff (v : Word) (i : Instr) : (∃ r, decodePlain v i = .error r) ↔ nbm1Field v ≠ 0 := by
  unfold decodePlain
  split
  case isTrue h => exact iff_of_false nofun (not_not.2 h)
  case isFalse h => exact iff_of_true ⟨_, rfl⟩ h

/-- R303's three cases, in the word's fields. -/
def IllegalFields (v : Word) : Prop :=
  opcField v = 0 ∨ (9 ≤ (opcField v).toNat ∧ (opcField v).toNat ≤ 14) ∨ rsvdField v ≠ 0 ∨
    (nbm1Field v ≠ 0 ∧ opcField v ≠ 4)

/-- With no reserved bits and an opcode in the map, only `NBM1` bits beside an opcode other than `PUSH`'s are illegal. -/
theorem illegalFields_iff_of_mapped {v : Word} (hr : rsvdField v = 0)
    (ho : (1 ≤ (opcField v).toNat ∧ (opcField v).toNat ≤ 8) ∨ (opcField v).toNat = 15) :
    IllegalFields v ↔ nbm1Field v ≠ 0 ∧ (opcField v).toNat ≠ 4 := by
  have h0 : opcField v ≠ 0 := fun h => by simp [h] at ho
  have hreserved : ¬ (9 ≤ (opcField v).toNat ∧ (opcField v).toNat ≤ 14) := by omega
  have h4 : opcField v ≠ 4 ↔ (opcField v).toNat ≠ 4 := not_congr BitVec.toNat_inj.symm
  simp only [IllegalFields, h0, hreserved, hr, h4, ne_eq, not_true, false_or]

/-- A word of an opcode without an operand is illegal where R303 says so. -/
theorem decodePlain_error_iff_illegalFields {v : Word} (i : Instr) (hr : rsvdField v = 0)
    (ho : (1 ≤ (opcField v).toNat ∧ (opcField v).toNat ≤ 8) ∨ (opcField v).toNat = 15) (h4 : (opcField v).toNat ≠ 4) :
    (∃ r, decodePlain v i = .error r) ↔ IllegalFields v := by
  rw [decodePlain_error_iff, illegalFields_iff_of_mapped hr ho, and_iff_left h4]

/-- The decoder's cases: reserved bits, then the opcodes of the map, then the reserved opcodes. -/
theorem decode_error_iff (v : Word) : (∃ r, decode v = .error r) ↔ IllegalFields v := by
  unfold decode
  split
  case isTrue hr => exact iff_of_true ⟨_, rfl⟩ (.inr (.inr (.inl hr)))
  case isFalse hr =>
    have hr : rsvdField v = 0 := not_not.1 hr
    split
    case h_4 ho =>
      rw [illegalFields_iff_of_mapped hr (by omega)]
      simp [ho]
    case h_10 _ h1 h2 h3 h4 h5 h6 h7 h8 h15 =>
      rw [imp_false] at h1 h2 h3 h4 h5 h6 h7 h8 h15
      have hlt := (opcField v).isLt
      refine iff_of_true ⟨_, rfl⟩ ?_
      by_cases h0 : (opcField v).toNat = 0
      · exact .inl (BitVec.eq_of_toNat_eq h0)
      · exact .inr (.inl (by omega))
    all_goals exact decodePlain_error_iff_illegalFields _ hr (by omega) (by omega)

/-- Settles O5: the decoder's cases are R303's, and `Check` finds an illegal word right after `BUSY`. -/
theorem illegalWordsRefused : Obligations.IllegalWordsRefused := by
  intro v
  refine ⟨decode_error_iff v, fun s hb ⟨r, hd⟩ => ?_⟩
  obtain ⟨-, hrefused, -⟩ := commandWriteFollowsRule v s
  exact hrefused .illegalCmd (checkRule_of_illegal hb hd)

/-! ### Commands out of their state (R137, R305) or past the length limit (R306) -/

/-- The step of a command that its checks refuse, with nothing in flight, raises their error alone (R132). -/
theorem exec_refusedWith {i : Instr} {s : State} {e : ErrCode} (hi : WellFormed i) (hb : s.busy = false)
    (he : precheck i s = some e) : RefusedWith e s (exec i s) :=
  (exec_of_idle hi ((busy_eq_false_iff s).1 hb)).trans (present_of_refused he)

/-- A command whose precondition is false is refused with STATE, whatever its length check says (R133). -/
theorem precheck_of_not_preState {i : Instr} {s : State} (h : ¬ preState i s = true) : precheck i s = some .state :=
  if_neg h

/-- A command with no length check is accepted where its row of R137 holds, and refused with STATE elsewhere. -/
theorem exec_of_row {i : Instr} {s : State} {row : Prop} [Decidable row] (hi : WellFormed i) (hb : s.busy = false)
    (hlen : lengthOk i s = true) (hrow : preState i s = true ↔ row) :
    if row then Accepted i s (exec i s) else RefusedWith .state s (exec i s) := by
  split
  case isTrue h => exact exec_of_admitted hi hb (precheck_eq_none_iff.2 ⟨hrow.2 h, hlen⟩)
  case isFalse h => exact exec_refusedWith hi hb (precheck_of_not_preState (mt hrow.1 h))

/-- Settles O10: the rows of R137, each against `preState`; the two commands of the first row share it. -/
theorem statePreconditions : Obligations.StatePreconditions := by
  intro s hb
  refine ⟨?starts, ?inner, fun n h1 h4 hm => ?push, ?finish, ?keyFinish, ?outer, ?verify, ?clear⟩
  case starts =>
    have hhash := exec_of_row (i := .hashStart) (row := s.mode = .idle) rfl hb rfl (by simp [preState])
    have hkey := exec_of_row (i := .keyStart) (row := s.mode = .idle) rfl hb rfl (by simp [preState])
    by_cases hm : s.mode = .idle
    · rw [if_pos hm] at hhash hkey ⊢; exact ⟨hhash, hkey⟩
    · rw [if_neg hm] at hhash hkey ⊢; exact ⟨hhash, hkey⟩
  case inner => exact exec_of_row rfl hb rfl (by simp [preState])
  case push =>
    exact exec_refusedWith (wellFormed_push_iff.2 ⟨h1, h4⟩) hb (precheck_of_not_preState (by simp [preState, hm]))
  case finish => exact exec_of_row rfl hb rfl (by simp [preState])
  case keyFinish => exact exec_of_row rfl hb rfl (by simp [preState])
  case outer => exact exec_of_row rfl hb rfl (by simp [preState, and_assoc])
  case verify => exact exec_of_row rfl hb rfl (by simp [preState, digestReadable_iff])
  case clear => exact exec_of_admitted rfl hb rfl

/-- In an open session `PUSH` is in its state (R137). -/
theorem preState_push_of_open {n : Nat} {s : State} (h : s.mode ≠ .idle) : preState (.push n) s = true := by
  cases hm : s.mode with
  | idle => exact absurd hm h
  | hash => simp [preState, hm]
  | key => simp [preState, hm]
  | inner => simp [preState, hm]

/-- In an open session the length check of `PUSH` is its last test (R133, R306). -/
theorem precheck_push_of_open {n : Nat} {s : State} (h : s.mode ≠ .idle) :
    precheck (.push n) s = if s.sess.nbytes.toNat + n ≤ 2 ^ 61 - 1 then none else some .length := by
  rw [precheck, if_pos (preState_push_of_open h)]
  simp only [lengthOk, decide_eq_true_eq]

/-- Settles O11: in an open session the length check alone decides. -/
theorem pushLengthLimit : Obligations.PushLengthLimit := by
  intro n s h1 h4 hb hm
  have hi : WellFormed (.push n) := wellFormed_push_iff.2 ⟨h1, h4⟩
  have hcheck := precheck_push_of_open (n := n) hm
  split
  case isTrue hlen => exact exec_refusedWith hi hb (hcheck.trans (if_neg (not_le.2 hlen)))
  case isFalse hlen => exact exec_of_admitted hi hb (hcheck.trans (if_pos (not_lt.1 hlen)))

/-- Settles O14: the fields of `raiseError`. -/
theorem firstErrorKept : Obligations.FirstErrorKept := by
  intro c s
  refine ⟨raiseError_err c s, fun h => ?_, fun h => ?_, rfl⟩
  · rw [raiseError_errcode, h]; rfl
  · rw [raiseError_errcode, h]; rfl

/-! ### A step always has a next state (R138, R300) -/

/-- Every register write gives a next state: a refused one raises its error there (R73 to R76). -/
theorem writeReg_next (r : Reg) (v : Word) (s : State) : ∃ t, writeReg r v s = .next t := by
  have hunlessBusy (w : State) : ∃ t, writeUnlessBusy s w = .next t := by
    unfold writeUnlessBusy
    split
    · exact ⟨_, rfl⟩
    · exact ⟨_, rfl⟩
  cases r with
  | cmd => exact ⟨_, commandWrite_eq_rule v s⟩
  | tagLen => exact hunlessBusy _
  | tag i => exact hunlessBusy _
  | _ => exact ⟨_, rfl⟩

/-- The word in flight, if there is one, is a command's. -/
def PendingLegal (s : State) : Prop := ∀ p, s.pending = some p → ∃ i, decode p.cmd = .ok i

theorem Inv.pendingLegal {s : State} (h : Inv s) : PendingLegal s := fun p hp =>
  let ⟨i, hd, _⟩ := h.pending p hp
  ⟨i, hd⟩

/-- The engine's turn passes, or completes the command in flight (R135, R138). -/
theorem engineTurn_next {s : State} (h : PendingLegal s) : ∃ t, engineTurn s = .next t := by
  cases hp : s.pending with
  | none => exact ⟨s, engineTurn_of_idle hp⟩
  | some p =>
    obtain ⟨i, hd⟩ := h p hp
    exact ⟨_, (engineTurn_of_decode hp hd).trans (exec_completes (wellFormed_of_decode hd) hp)⟩

/-- Every event gives a next state where the word in flight is a command's. -/
theorem takeEvent_next {s : State} (e : Event) (h : PendingLegal s) : ∃ t, takeEvent e s = .next t := by
  cases e with
  | read off => exact ⟨_, rfl⟩
  | write off v => exact writeReg_next (regAt off) v s
  | readAt addr =>
    cases hw : windowOffset addr with
    | none => simp [takeEvent, hw]
    | some off => simp [takeEvent, hw, busRead]
  | writeAt addr v =>
    cases hw : windowOffset addr with
    | none => simp [takeEvent, hw]
    | some off => simp only [takeEvent, hw]; exact writeReg_next (regAt off) v s
  | engine => exact engineTurn_next h
  | reset => exact ⟨_, rfl⟩

/-- Settles O40: by the invariant the word in flight is a command's, and then neither an event nor the engine's turn
stops. -/
theorem stepNeverStops : Obligations.StepNeverStops := by
  intro s hinv
  have hlegal := hinv.pendingLegal
  cases hi : s.inputs with
  | nil => rw [step_of_inputs_nil hi]; exact engineTurn_next hlegal
  | cons e rest => rw [step_of_inputs_cons hi]; exact takeEvent_next e hlegal

/-! ### `CLEAR` (R139, R335, R344) -/

/-- What `CLEAR`'s completion leaves is what a reset leaves, but for `CTRL` and `DONE`: the scratch is the same free value
(R330, R335). -/
theorem retire_committed_clear (din : Word) (s : State) :
    retire (committed .clear din s) = { resetCore s with irqEn := s.irqEn, done := true } := rfl

/-- Settles O25: both from `retire_committed_clear`; a busy core refuses the word of `CLEAR` as any other. -/
theorem clearAgainstReset : Obligations.ClearAgainstReset := by
  intro s p hp
  have hbusy : s.busy = true := (busy_eq_true_iff s).2 ⟨p, hp⟩
  have hclear : exec .clear s = .next { resetCore s with irqEn := s.irqEn, done := true } := by
    rw [exec_completes rfl hp, retire_committed_clear]
  obtain ⟨hrefused, -⟩ := writesWhileBusy (encode .clear) s hbusy
  exact ⟨_, resetCore s, hclear, rfl, rfl, rfl, rfl, rfl, rfl, rfl, hrefused⟩

/-- Settles O37: the write stores `v` and leaves `CLEAR` in flight; its completion then puts `DIN` to its reset value. -/
theorem dinWriteDuringClearIsLost : Obligations.DinWriteDuringClearIsLost := by
  intro s p v rest hp hcmd hi
  have hwrite : step s = .next { s with inputs := .engine :: rest, din := v } := step_of_inputs_cons hi
  have hclear : decode p.cmd = .ok .clear := by rw [hcmd]; exact decode_encode rfl
  have hbusy : s.busy = true := (busy_eq_true_iff s).2 ⟨p, hp⟩
  exact ⟨_, _, hwrite, rfl, hbusy, step_completes (s := { s with din := v }) hp hclear rest, rfl, rfl⟩

end Sys2Proof.Machine
end
